-- ==== Sys2Proof/Word.lean ====
section
/-! DEFINITION. The widths of the block: a wire byte (00_scope.md R6 `BYTE`), a checksum or table entry (R6 `FCS_W`) and a
packed command word (30_encoding.md R67). Every value is unsigned (R8). -/

namespace Sys2Proof

/-- A wire, payload or buffer element: 8 bits (R6, R60). -/
abbrev Byte := BitVec 8

/-- A running checksum or a table entry: 16 bits (R6, R21, R26). -/
abbrev Word := BitVec 16

/-- A packed command word: 32 bits (R67). -/
abbrev CmdWord := BitVec 32

end Sys2Proof
end

