-- ==== Sys2Proof/Config.lean ====
section
/-! DEFINITION. The constants the spec fixes (00_scope.md R6, 30_encoding.md R61), the parameters the state after reset
takes where the spec leaves them open (log entry 1), and the one free value (log entry 2). -/

namespace Sys2Proof.Config

/-- `FLAG`, the frame delimiter (R61). -/
def flag : Byte := 0x7E

/-- `ESC`, the escape marker (R61). -/
def esc : Byte := 0x7D

/-- `XMASK`, the mask applied to an escaped byte (R61). -/
def xmask : Byte := 0x20

/-- `ADDR`, the first header byte (R61). -/
def addr : Byte := 0xFF

/-- `CTRL`, the second header byte (R61). -/
def ctrl : Byte := 0x03

/-- `FCS_INIT` (R6, R85 (a)). -/
def fcsInit : Word := 0xFFFF

/-- `FCS_XOROUT` (R6, R85 (c)). -/
def fcsXorOut : Word := 0xFFFF

/-- `FCS_GOOD`, the residue of a good frame (R6, R85 (d)). -/
def fcsGood : Word := 0xF0B8

/-- `POLY_R`, the table-generation constant (R6, R80). -/
def polyR : Word := 0x8408

/-- `MIN_SIZE`, the smallest `frame_size` that is checked and delivered (R6, R134). -/
def minSize : Nat := 4

/-- DESIGN CHOICE (log entry 1, unsafe): `N_DEC` of the state after reset; the spec leaves it open. All sixteen instances a
packed word can name exist. -/
def resetNDec : Nat := 16

/-- DESIGN CHOICE (log entry 1, unsafe): `DEC_CAP` of the state after reset; the spec leaves it open. -/
def resetDecCap : Nat := 64

/-- DESIGN CHOICE (log entry 1, unsafe): `ENC_MAX_N` of the state after reset: infinite, as 41_encoder.md R117 allows. -/
def resetEncMaxN : Option Nat := none

/-- FREE VALUE (log entry 2, safe): the byte drawn for offset `a` of `DEC_BUF(d)` when instance `d` is created
(70_reset_and_hazards.md R191). It has no body: nothing can prove which byte it is. -/
opaque decBufDraw : Nat → Nat → Byte

end Sys2Proof.Config
end

