-- ==== Sys2Proof/Syntax.lean ====
section
/-! DEFINITION. The operations (spec/opcode_table.json, one constructor of `Instr` a row) and the forms in which the host
hands an operation over (`Cmd`). -/

namespace Sys2Proof

/-- One constructor per row of spec/opcode_table.json. `d` is a decoder instance, `b` a wire byte, `r` a resolved byte. -/
inductive Instr where
  /-- TBL_READ: the ROM entry `T[i]` (40_fcs16.md R84). -/
  | tblRead (i : Byte)
  /-- FCS_UPDATE: fold one byte (R83). -/
  | fcsUpdate (f : Word) (b : Byte)
  /-- ENC_PROCESS: encode payload `P` into the caller's buffer, which is `size` (`S`) bytes long; `out` says which of the
  host's buffers it is (41_encoder.md R102; log entry 5). -/
  | encProcess (payload : List Byte) (size : Nat) (out : Nat)
  /-- DEC_BYTE: one byte for decoder `d` (42_decoder.md R130). -/
  | decByte (d : Nat) (b : Byte)
  /-- DEC_PROCESS: a chunk for decoder `d` (R145). -/
  | decProcess (d : Nat) (chunk : List Byte)
  /-- RESET: decoder `d` to `Idle` (70_reset_and_hazards.md R190). -/
  | reset (d : Nat)
  /-- RESERVED_OPSEL_0 with the word's other 28 bits (30_encoding.md R68). -/
  | reservedOpsel0 (rest : BitVec 28)
  /-- RESERVED_OPSEL_7 (R68). -/
  | reservedOpsel7 (rest : BitVec 28)
  /-- RESERVED_OPSEL_8 (R68). -/
  | reservedOpsel8 (rest : BitVec 28)
  /-- RESERVED_OPSEL_9 (R68). -/
  | reservedOpsel9 (rest : BitVec 28)
  /-- RESERVED_OPSEL_A (R68). -/
  | reservedOpselA (rest : BitVec 28)
  /-- RESERVED_OPSEL_B (R68). -/
  | reservedOpselB (rest : BitVec 28)
  /-- RESERVED_OPSEL_C (R68). -/
  | reservedOpselC (rest : BitVec 28)
  /-- RESERVED_OPSEL_D (R68). -/
  | reservedOpselD (rest : BitVec 28)
  /-- RESERVED_OPSEL_E (R68). -/
  | reservedOpselE (rest : BitVec 28)
  /-- RESERVED_OPSEL_F (R68). -/
  | reservedOpselF (rest : BitVec 28)
  /-- FCS_FOLD, the pseudo-operation (30_encoding.md R74). -/
  | fcsFold (f : Word) (bytes : List Byte)
  /-- STUFF_ESC: the stuffer's class of the byte 0x7D (R70, R100). -/
  | stuffEsc
  /-- STUFF_FLAG: the stuffer's class of the byte 0x7E (R70, R100). -/
  | stuffFlag
  /-- STUFF_PASS: the stuffer's class of every other byte (R70, R100). -/
  | stuffPass (b : Byte)
  /-- DEC_IDLE_FLAG: row 1 of 30_encoding.md R69 (R131). -/
  | decIdleFlag (d : Nat)
  /-- DEC_IDLE_OTHER: row 2 (R132). -/
  | decIdleOther (d : Nat) (b : Byte)
  /-- DEC_ESC_FLAG: row 3 (R133). -/
  | decEscFlag (d : Nat)
  /-- DEC_CLOSE_SHORT: row 4 (R134). -/
  | decCloseShort (d : Nat)
  /-- DEC_CLOSE_GOOD: row 5 (R135). -/
  | decCloseGood (d : Nat)
  /-- DEC_CLOSE_BADFCS: row 6 (R136). -/
  | decCloseBadfcs (d : Nat)
  /-- DEC_UNESCAPE: row 7 (R137), then R140. -/
  | decUnescape (d : Nat) (b : Byte)
  /-- DEC_ESC_MARK: row 8 (R138). -/
  | decEscMark (d : Nat)
  /-- DEC_LITERAL: row 9 (R139), then R140. -/
  | decLiteral (d : Nat) (b : Byte)
  /-- DEC_HDR_MATCH: row 10, a resolved byte (R140, R141). -/
  | decHdrMatch (d : Nat) (r : Byte)
  /-- DEC_HDR_BAD: row 11 (R140, R142). -/
  | decHdrBad (d : Nat) (r : Byte)
  /-- DEC_STORE: row 12 (R140, R143). -/
  | decStore (d : Nat) (r : Byte)
  /-- DEC_OVERSIZE: row 13 (R140, R144). -/
  | decOversize (d : Nat) (r : Byte)
deriving DecidableEq, Repr

/-- How the host hands an operation to the block. A packed word and a stuffer byte are bits the decoder reads; an operation
with a byte sequence has no packed form and comes by value (R44, R67); a wire or resolved byte is classified by the state
of its decoder (R69; log entry 9). -/
inductive Cmd where
  /-- A packed 32-bit command word (R67). -/
  | packed (w : CmdWord)
  /-- OPSEL 3 with its operands by value (R67). -/
  | encode (payload : List Byte) (size : Nat) (out : Nat)
  /-- OPSEL 5 with its operands by value (R67). -/
  | chunk (d : Nat) (bytes : List Byte)
  /-- OPSEL 4 by value: it names an instance the packed form's four bits cannot (log entry 11). -/
  | feed (d : Nat) (b : Byte)
  /-- OPSEL 6 by value, for the same reason (log entry 11). -/
  | resetInst (d : Nat)
  /-- The pseudo-operation FCS_FOLD (R74), which has no OPSEL. -/
  | fold (f : Word) (bytes : List Byte)
  /-- A byte at the stuffer (R70). -/
  | stuffer (b : Byte)
  /-- A byte at decoder `d`'s input, classified by rows 1 to 9 of R69. -/
  | wire (d : Nat) (b : Byte)
  /-- A resolved byte at decoder `d`, classified by rows 10 to 13 of R69. -/
  | resolved (d : Nat) (r : Byte)
deriving DecidableEq, Repr

end Sys2Proof
end

