-- ==== Sys2Proof/Machine/State.lean ====
section
/-! DEFINITION. The state as plain data (10_state.md), the outputs the host receives (R30), the recorded fault (60_exceptions.md
R174), the refusals (R175), and the state after reset (R37). -/

namespace Sys2Proof.Machine

/-- A byte memory: (offset, byte) pairs, offsets strictly rising (`memWf`). An offset that is not listed is one the block
has not written: it reads as no byte (`none`), the `??` of 95_test_vectors.md; what such a byte of `DEC_BUF` holds is the
free value of log entry 2. -/
abbrev Mem := List Host.Cell

/-- A decoder's control state (R27): in `Idle` the four fields do not exist. -/
inductive Ctl where
  /-- No frame in progress (R22). -/
  | idle
  /-- Frame assembly in progress: header bytes matched (R23), escape pending (R24), bytes stored (R25), running
  checksum (R26). -/
  | inFrame (hdr : Fin 3) (esc : Bool) (size : Nat) (fcs : Word)
deriving DecidableEq, Repr

/-- One decoder instance: its control state and its output buffer `DEC_BUF` (R27, R28, R38). -/
structure Decoder where
  /-- The control state (R22 to R27). -/
  ctl : Ctl
  /-- `DEC_BUF` (R28, 20_memory.md R42). -/
  buf : Mem
deriving DecidableEq, Repr

/-- The four diagnostics with their info fields (60_exceptions.md R170). -/
inductive Diag where
  /-- Code 1: a flag while an escape is pending (R133). -/
  | escFlag
  /-- Code 2: a closing flag with a bad checksum; `size` counts the two FCS bytes (R136). -/
  | badFcs (fcs : Word) (size : Nat)
  /-- Code 3: a resolved byte that is not the header byte (R142). -/
  | badHeader
  /-- Code 4: a resolved byte with the buffer full (R144). -/
  | oversize
deriving DecidableEq, Repr

/-- A decoder event (R30 (c)). -/
inductive Event where
  /-- `FRAME_READY(d, len)` with the copy of `DEC_BUF(d)[0..len-1]` taken when it is emitted (R173; 92_eei_decisions.md D9). -/
  | frameReady (d : Nat) (len : Nat) (payload : List Byte)
  /-- `DIAG(d, code, info)` (R170). -/
  | diag (d : Nat) (code : Diag)
deriving DecidableEq, Repr

/-- What an operation hands to the host (R30, R196). -/
inductive Output where
  /-- The `u16` result of TBL_READ, FCS_UPDATE or FCS_FOLD. -/
  | word (v : Word)
  /-- The bytes `stuff(b)` gives (41_encoder.md R100). -/
  | bytes (bs : List Byte)
  /-- The frame length `L` that ENC_PROCESS returns (R109). -/
  | length (n : Nat)
  /-- A decoder event. -/
  | event (e : Event)
deriving DecidableEq, Repr

/-- The faults. None of them stops the machine: 60_exceptions.md R174 records the fault and 70_reset_and_hazards.md R192 and
R202 let later operations run, so a fault is an entry of `State.faults` and no step answers `Host.Outcome.fault`
(log entry 4). -/
inductive Fault where
  /-- `ENC_OVERFLOW(n, S)`, raised by ENC_PROCESS when `S < 2*n + 8`, before any write (R111, R174). Safe: the original
  may write out of bounds here, and the model writes nothing. -/
  | encOverflow (n : Nat) (size : Nat)
deriving DecidableEq, Repr

/-- Why an operation has no step (60_exceptions.md R175). -/
inductive Refusal where
  /-- An instruction without a meaning yet; no arm raises it in this model. Safe. -/
  | notModelled (mnemonic : String)
  /-- A word with a reserved OPSEL, raised by the ten RESERVED_OPSEL rows (30_encoding.md R68). Safe. -/
  | reservedOpsel (opsel : Nat)
  /-- A word whose must-be-zero fields are not zero, raised by `decodeWord` (R68). Safe. -/
  | mustBeZero (opsel : Nat)
  /-- A packed word with OPSEL 3 or 5, which have no packed form, raised by `decodeWord` (R67; log entry 7). Safe. -/
  | noPackedForm (opsel : Nat)
  /-- An instance `d >= N_DEC`, raised by every operation that names an instance (R68, R175). Safe. -/
  | noSuchDecoder (d : Nat)
  /-- ENC_PROCESS with `n > ENC_MAX_N` (41_encoder.md R117). Safe. -/
  | payloadTooLong (n : Nat)
  /-- A row of 30_encoding.md R69 or R70 named for a byte or a state that is not in its class, raised by the rows; a byte
  that arrives as a command is always given its matching row (log entry 9). Safe. -/
  | rowNotMatched
deriving DecidableEq, Repr

/-- The parameters fixed when the block is built (00_scope.md R6, 10_state.md R35). No operation changes them; they stand in
State so that every statement holds for all of them (log entry 1). `N_DEC` is the length of `State.decs`. -/
structure Params where
  /-- `DEC_CAP`, C: the capacity of every `DEC_BUF`; any natural (R6, R7). -/
  decCap : Nat
  /-- `ENC_MAX_N`: the largest payload length; `none` is infinite (R6, 41_encoder.md R117). -/
  encMaxN : Option Nat
deriving DecidableEq, Repr

/-- The machine. -/
structure State where
  /-- The build-time parameters (R6, R35). -/
  params : Params
  /-- The decoder instances 0 to `N_DEC - 1` (R20, R38). -/
  decs : List Decoder
  /-- The caller's `ENC_OUT` buffers: (buffer number, contents) pairs, numbers strictly rising (20_memory.md R41; log
  entry 5). -/
  encOut : List (Nat × Mem)
  /-- The fault state: every recorded fault, oldest first (10_state.md R37, 60_exceptions.md R174). -/
  faults : List Fault
  /-- The model's own field: every result and event handed to the host, oldest first (R30, R202; log entry 3). -/
  outputs : List Output
  /-- The model's own field: the operations the host will issue, next first (R32, R67; log entry 3). -/
  pending : List Cmd
deriving DecidableEq, Repr

/-- Power-up of a block built with the given parameters: every instance in `Idle` with an unwritten buffer, no fault
recorded, nothing issued and nothing handed over (10_state.md R37, 70_reset_and_hazards.md R190, R191). -/
def State.powerUp (nDec : Nat) (params : Params) : State :=
  { params := params
    decs := List.replicate nDec { ctl := .idle, buf := [] }
    encOut := []
    faults := []
    outputs := []
    pending := [] }

/-- The machine after reset, with the parameters of log entry 1. -/
def State.reset : State :=
  State.powerUp Config.resetNDec { decCap := Config.resetDecCap, encMaxN := Config.resetEncMaxN }

end Sys2Proof.Machine
end

