-- ==== Sys2Proof/Machine/Ops.lean ====
section
/-! DEFINITION. The named operations over memory, decoder instances, the host's buffers, the run record and the host's queue.
The block has no exception entry and no return from one (60_exceptions.md R178, R179); what stands in their place, recording
`ENC_OVERFLOW` and handing an event over, is `recordFault` and `afterByte`. -/

namespace Sys2Proof.Machine

/-! ## Keyed lists in canonical form -/

/-- The value listed under key `k`. -/
def assocFind {α : Type} : List (Nat × α) → Nat → Option α
  | [], _ => none
  | (a, v) :: m, k => if a = k then some v else assocFind m k

/-- List `v` under key `k`, in place of what is listed there, keys staying in rising order. -/
def assocPut {α : Type} : List (Nat × α) → Nat → α → List (Nat × α)
  | [], k, v => [(k, v)]
  | (a, w) :: m, k, v =>
    if k < a then (k, v) :: (a, w) :: m
    else if k = a then (k, v) :: m
    else (a, w) :: assocPut m k v

/-- The canonical form: keys strictly rising. -/
def assocSorted {α : Type} : List (Nat × α) → Bool
  | [] => true
  | [_] => true
  | (a, _) :: (b, w) :: m => decide (a < b) && assocSorted ((b, w) :: m)

/-! ## Memory: every access is one byte (20_memory.md R40, R48) -/

/-- `MemRead(SPACE+a, 1)` (00_scope.md R12): `none` where the block has written nothing. -/
def memRead (m : Mem) (a : Nat) : Option Byte := assocFind m a

/-- `MemWrite(SPACE+a, 1, v)` (R12). -/
def memWrite (m : Mem) (a : Nat) (v : Byte) : Mem := assocPut m a v

/-- The canonical form of a memory. Every listed byte is one the block wrote, and an unlisted offset reads as no byte, so
strictly rising offsets are the whole form. -/
def memWf (m : Mem) : Bool := assocSorted m

/-! ## Decoder instances -/

/-- `N_DEC` (R6). -/
def nDec (s : State) : Nat := s.decs.length

/-- Replace decoder instance `d`. -/
def putDecoder (s : State) (d : Nat) (x : Decoder) : State := { s with decs := s.decs.set d x }

/-- The byte that `DEC_BUF(d)` holds at offset `a`: what the decoder wrote last, else the byte drawn at creation
(70_reset_and_hazards.md R191; log entry 2). -/
def bufByte (d : Nat) (buf : Mem) (a : Nat) : Byte := (memRead buf a).getD (Config.decBufDraw d a)

/-- `DEC_BUF(d)[0..len-1]`, what the host reads at a FRAME_READY (60_exceptions.md R173). -/
def bufPayload (d : Nat) (buf : Mem) (len : Nat) : List Byte := (List.range len).map (bufByte d buf)

/-- `DEC_BUF(d)` at offset `a`, if the block has written it. -/
def decBufRead (s : State) (d a : Nat) : Option Byte :=
  match s.decs[d]? with
  | some x => memRead x.buf a
  | none => none

/-! ## The host's output buffers -/

/-- The contents of the caller's buffer number `out`. -/
def encBuf (s : State) (out : Nat) : Mem := (assocFind s.encOut out).getD []

/-- Replace the contents of the caller's buffer number `out`. -/
def putEncOut (s : State) (out : Nat) (m : Mem) : State := { s with encOut := assocPut s.encOut out m }

/-- `ENC_OUT` of buffer `out` at offset `a`, if the block has written it. -/
def encOutRead (s : State) (out a : Nat) : Option Byte := memRead (encBuf s out) a

/-! ## The run record -/

/-- Hand one result to the host (R30). -/
def emit (s : State) (o : Output) : State := { s with outputs := s.outputs ++ [o] }

/-- The numeric code of a diagnostic (60_exceptions.md R170). -/
def diagCode : Diag → Nat
  | .escFlag => 1
  | .badFcs _ _ => 2
  | .badHeader => 3
  | .oversize => 4

/-- Hand over the events of one step of a decoder, in order (R13, R173). -/
def emitEvents (s : State) (es : List Event) : State :=
  { s with outputs := s.outputs ++ es.map Output.event }

/-- `raise`: record a fault (60_exceptions.md R174). Nothing removes an entry (R192). -/
def recordFault (s : State) (f : Fault) : State := { s with faults := s.faults ++ [f] }

/-- Instance `d` after one byte: its new state, and the event of that byte handed to the host (42_decoder.md R130, R145). -/
def afterByte (s : State) (d : Nat) (r : Decoder × Option Event) : State :=
  emitEvents (putDecoder s d r.1) r.2.toList

/-! ## The host's queue (log entry 3) -/

/-- The operation the host issues next, and the machine with it issued. -/
def fetch (s : State) : Option (Cmd × State) :=
  match s.pending with
  | [] => none
  | c :: cs => some (c, { s with pending := cs })

/-- The host issues `c` before anything else it would issue. -/
def issueFirst (s : State) (c : Cmd) : State := { s with pending := c :: s.pending }

end Sys2Proof.Machine
end

