-- ==== Sys2Proof/Machine/Operands.lean ====
section
/-! DEFINITION. The operand forms: the fields of the packed word (30_encoding.md R67), the bytes of a checksum (R62, R64), the
expected header byte, the decoder-instance operand and the limits of ENC_PROCESS. -/

namespace Sys2Proof.Machine

/-! ## Fields of the packed word (R67) -/

/-- `OPSEL`, bits [31:28]. -/
def opselField (w : CmdWord) : BitVec 4 := w.extractLsb' 28 4

/-- `INST`, bits [27:24]. -/
def instField (w : CmdWord) : BitVec 4 := w.extractLsb' 24 4

/-- `F16`, bits [23:8]. -/
def f16Field (w : CmdWord) : Word := w.extractLsb' 8 16

/-- `B8`, bits [7:0]. -/
def b8Field (w : CmdWord) : Byte := w.extractLsb' 0 8

/-- Bits [27:0]: every bit of the word below `OPSEL`. -/
def restField (w : CmdWord) : BitVec 28 := w.extractLsb' 0 28

/-- A packed word from its four fields. -/
def packWord (opsel inst : BitVec 4) (f16 : Word) (b8 : Byte) : CmdWord := opsel ++ inst ++ f16 ++ b8

/-! ## Bytes of a checksum (R62: `lo = fcsv[7:0]`, `hi = fcsv[15:8]`) -/

/-- `v[7:0]`. -/
def loByte (v : Word) : Byte := v.extractLsb' 0 8

/-- `v[15:8]`. -/
def hiByte (v : Word) : Byte := v.extractLsb' 8 8

/-- `zext_16(b)` (00_scope.md R8). -/
def zext16 (b : Byte) : Word := b.setWidth 16

/-! ## The header (R61, 42_decoder.md R141) -/

/-- `HDR[hdr]` for `hdr < 2`; none once both header bytes are matched. -/
def expectedHdr : Fin 3 → Option Byte
  | 0 => some Config.addr
  | 1 => some Config.ctrl
  | 2 => none

/-! ## The instance operand (R68, 60_exceptions.md R175) -/

/-- Run `k` on instance `d`; refuse where `d >= N_DEC`. -/
def withDecoder (d : Nat) (s : State) (k : Decoder → Host.Outcome State Fault Refusal) :
    Host.Outcome State Fault Refusal :=
  match s.decs[d]? with
  | none => .refused (.noSuchDecoder d)
  | some x => k x

/-- Run one row of R69 on instance `d`: `row` answers none where the instance is not in the row's class. -/
def onRow (d : Nat) (s : State) (row : Decoder → Option (Decoder × Option Event)) :
    Host.Outcome State Fault Refusal :=
  withDecoder d s fun x =>
    match row x with
    | none => .refused .rowNotMatched
    | some r => .next (afterByte s d r)

/-! ## The operands of ENC_PROCESS (41_encoder.md R111, R117) -/

/-- `n > ENC_MAX_N`. -/
def payloadTooLong (limit : Option Nat) (n : Nat) : Bool :=
  match limit with
  | none => false
  | some m => decide (m < n)

/-- `S < 2*n + 8`. -/
def bufferTooSmall (n size : Nat) : Bool := decide (size < 2 * n + 8)

end Sys2Proof.Machine
end

