-- ==== Sys2Proof/Machine/Fcs16.lean ====
section
/-! DEFINITION. The FCS16 unit (40_fcs16.md): the table, the fold, and the meanings of TBL_READ, FCS_UPDATE and FCS_FOLD. -/

namespace Sys2Proof.Machine

/-- One pass of the loop of R80: shift right, and XOR with 0x8408 if the low bit was 1. -/
def fcsShift (b : Word) : Word :=
  if b.getLsbD 0 then (b >>> 1) ^^^ Config.polyR else b >>> 1

/-- The loop of R80 and R87, `n` times. -/
def fcsShifts : Nat → Word → Word
  | 0, b => b
  | n + 1, b => fcsShifts n (fcsShift b)

/-- The ROM `T` (R80: `T[i] = gen(i)`), constant from power-up (10_state.md R21; log entry 8). -/
def fcsTable (i : Byte) : Word := fcsShifts 8 (zext16 i)

/-- `update(f, b)` (R83). -/
def fcsUpdate (f : Word) (b : Byte) : Word :=
  (f >>> 8) ^^^ fcsTable (((f ^^^ zext16 b) &&& 0xFF).setWidth 8)

/-- `update*(f, s)`: the fold over a byte sequence (30_encoding.md R62, R74). -/
def fcsFoldBytes (f : Word) (bytes : List Byte) : Word := bytes.foldl fcsUpdate f

/-- The bit-serial form of the fold (R87), to which `fcsUpdate` is equal. -/
def fcsUpdateBits (f : Word) (b : Byte) : Word := fcsShifts 8 (f ^^^ zext16 b)

/-- TBL_READ (R84). -/
def execTblRead (i : Byte) (s : State) : Host.Outcome State Fault Refusal :=
  .next (emit s (.word (fcsTable i)))

/-- FCS_UPDATE (R83). -/
def execFcsUpdate (f : Word) (b : Byte) (s : State) : Host.Outcome State Fault Refusal :=
  .next (emit s (.word (fcsUpdate f b)))

/-- FCS_FOLD (30_encoding.md R74): the result is `f(k+1)`, the last of the folds (log entry 9). -/
def execFcsFold (f : Word) (bytes : List Byte) (s : State) : Host.Outcome State Fault Refusal :=
  .next (emit s (.word (fcsFoldBytes f bytes)))

end Sys2Proof.Machine
end

