-- ==== Sys2Proof/Machine/Flags.lean ====
section
/-! DEFINITION. The two one-bit quantities that act as flags (10_state.md R34): `dec.esc` and whether `dec.mode == InFrame`.
The block has no condition-code register. -/

namespace Sys2Proof.Machine

/-- `dec.mode == InFrame` (R22, R34 (b)). -/
def inFrameFlag : Ctl → Bool
  | .idle => false
  | .inFrame _ _ _ _ => true

/-- `dec.esc` (R24, R34 (a)); none in `Idle`, where it does not exist (R27). -/
def escFlag? : Ctl → Option Bool
  | .idle => none
  | .inFrame _ esc _ _ => some esc

/-- `dec.esc <- v`. In `Idle` there is no such flag and nothing changes. -/
def writeEsc (v : Bool) : Ctl → Ctl
  | .idle => .idle
  | .inFrame hdr _ size fcs => .inFrame hdr v size fcs

/-- The fresh `InFrame(hdr=0, esc=false, size=0, fcs=0xFFFF)` (42_decoder.md R131, R134 to R136): sets the mode flag, clears
`dec.esc`. -/
def freshFrame : Ctl := .inFrame 0 false 0 Config.fcsInit

end Sys2Proof.Machine
end

