-- ==== Sys2Proof/Machine/FrameDecoder.lean ====
section
/-! DEFINITION. The frame decoder (42_decoder.md): what each row of 30_encoding.md R69 does to an instance, DEC_BYTE, DEC_PROCESS,
and the thirteen rows as instructions of their own. -/

namespace Sys2Proof.Machine

/-! ## What each row does (R131 to R144) -/

/-- Rows 1 and 4, and the re-arm of rows 5 and 6: a fresh InFrame, no event (R131, R134). -/
def rowOpen (x : Decoder) : Decoder × Option Event := ({ x with ctl := freshFrame }, none)

/-- Row 2: nothing (R132). -/
def rowIgnore (x : Decoder) : Decoder × Option Event := (x, none)

/-- Rows 3, 11 and 13: a diagnostic, and `Idle` (R133, R142, R144). -/
def rowAbort (d : Nat) (x : Decoder) (c : Diag) : Decoder × Option Event :=
  ({ x with ctl := .idle }, some (.diag d c))

/-- Row 5: `FRAME_READY(d, size - 2)`, then a fresh InFrame (R135). -/
def rowDeliver (d : Nat) (x : Decoder) (size : Nat) : Decoder × Option Event :=
  ({ x with ctl := freshFrame }, some (.frameReady d (size - 2) (bufPayload d x.buf (size - 2))))

/-- Row 6: `DIAG(d, BAD_FCS, fcs, size)`, then a fresh InFrame (R136). -/
def rowBadFcs (d : Nat) (x : Decoder) (size : Nat) (fcs : Word) : Decoder × Option Event :=
  ({ x with ctl := freshFrame }, some (.diag d (.badFcs fcs size)))

/-- Row 8: the escape is pending, nothing else changes (R138). -/
def rowEscMark (x : Decoder) : Decoder × Option Event := ({ x with ctl := writeEsc true x.ctl }, none)

/-- Row 10: one more header byte matched, `r` folded and not stored (R140, R141). -/
def rowHdrMatch (x : Decoder) (r : Byte) (hdr : Fin 3) (esc : Bool) (size : Nat) (fcs : Word) :
    Decoder × Option Event :=
  ({ x with ctl := .inFrame (hdr + 1) esc size (fcsUpdate fcs r) }, none)

/-- Row 12: `r` folded and stored at offset `size` (R140, R143). -/
def rowStore (x : Decoder) (r : Byte) (hdr : Fin 3) (esc : Bool) (size : Nat) (fcs : Word) :
    Decoder × Option Event :=
  ({ ctl := .inFrame hdr esc (size + 1) (fcsUpdate fcs r), buf := memWrite x.buf size r }, none)

/-! ## DEC_BYTE (R130) -/

/-- `resolved(d, r)`: rows 10 to 13. In rows 11 and 13 the folded checksum is given up with the frame (R140). A size above
`C` occurs in no run (10_state.md R33) and takes row 13 (log entry 6). -/
def resolvedByte (cap d : Nat) (x : Decoder) (r : Byte) (hdr : Fin 3) (esc : Bool) (size : Nat) (fcs : Word) :
    Decoder × Option Event :=
  match expectedHdr hdr with
  | some h => if r = h then rowHdrMatch x r hdr esc size fcs else rowAbort d x .badHeader
  | none => if size < cap then rowStore x r hdr esc size fcs else rowAbort d x .oversize

/-- Rows 7 and 9: a resolved byte with no escape pending after it (R137, R139). -/
def rowResolve (cap d : Nat) (x : Decoder) (r : Byte) (hdr : Fin 3) (size : Nat) (fcs : Word) :
    Decoder × Option Event :=
  resolvedByte cap d x r hdr false size fcs

/-- `DEC_BYTE(d, b)` on the instance itself, in the order of tests of R130 and 60_exceptions.md R177. -/
def decodeByte (cap d : Nat) (x : Decoder) (b : Byte) : Decoder × Option Event :=
  match x.ctl with
  | .idle => if b = Config.flag then rowOpen x else rowIgnore x
  | .inFrame hdr esc size fcs =>
    if b = Config.flag then
      if esc then rowAbort d x .escFlag
      else if size < Config.minSize then rowOpen x
      else if fcs = Config.fcsGood then rowDeliver d x size
      else rowBadFcs d x size fcs
    else if esc then rowResolve cap d x (b ^^^ Config.xmask) hdr size fcs
    else if b = Config.esc then rowEscMark x
    else rowResolve cap d x b hdr size fcs

/-- DEC_BYTE on the state; an instance that does not exist is left to the meanings to refuse. -/
def feedByte (d : Nat) (s : State) (b : Byte) : State :=
  match s.decs[d]? with
  | none => s
  | some x => afterByte s d (decodeByte s.params.decCap d x b)

/-- `for c in chunk: DEC_BYTE(d, c)`, each event handed over before the next byte (R145). -/
def feedChunk (d : Nat) (s : State) (chunk : List Byte) : State := chunk.foldl (feedByte d) s

/-- DEC_BYTE (R130). -/
def execDecByte (d : Nat) (b : Byte) (s : State) : Host.Outcome State Fault Refusal :=
  withDecoder d s fun _ => .next (feedByte d s b)

/-- DEC_PROCESS (R145): its expansion into DEC_BYTE, in one atomic step. -/
def execDecProcess (d : Nat) (chunk : List Byte) (s : State) : Host.Outcome State Fault Refusal :=
  withDecoder d s fun _ => .next (feedChunk d s chunk)

/-! ## The rows as instructions (log entry 9): the row's condition on the instance, then what the row does -/

/-- DEC_IDLE_FLAG, row 1 (R131). -/
def execDecIdleFlag (d : Nat) (s : State) : Host.Outcome State Fault Refusal :=
  onRow d s fun x =>
    match x.ctl with
    | .idle => some (rowOpen x)
    | .inFrame _ _ _ _ => none

/-- DEC_IDLE_OTHER, row 2 (R132). -/
def execDecIdleOther (d : Nat) (b : Byte) (s : State) : Host.Outcome State Fault Refusal :=
  onRow d s fun x =>
    match x.ctl with
    | .idle => if b = Config.flag then none else some (rowIgnore x)
    | .inFrame _ _ _ _ => none

/-- DEC_ESC_FLAG, row 3 (R133). -/
def execDecEscFlag (d : Nat) (s : State) : Host.Outcome State Fault Refusal :=
  onRow d s fun x =>
    match x.ctl with
    | .idle => none
    | .inFrame _ esc _ _ => if esc then some (rowAbort d x .escFlag) else none

/-- DEC_CLOSE_SHORT, row 4 (R134). -/
def execDecCloseShort (d : Nat) (s : State) : Host.Outcome State Fault Refusal :=
  onRow d s fun x =>
    match x.ctl with
    | .idle => none
    | .inFrame _ esc size _ => if esc = false ∧ size < Config.minSize then some (rowOpen x) else none

/-- DEC_CLOSE_GOOD, row 5 (R135). -/
def execDecCloseGood (d : Nat) (s : State) : Host.Outcome State Fault Refusal :=
  onRow d s fun x =>
    match x.ctl with
    | .idle => none
    | .inFrame _ esc size fcs =>
      if esc = false ∧ Config.minSize ≤ size ∧ fcs = Config.fcsGood then some (rowDeliver d x size) else none

/-- DEC_CLOSE_BADFCS, row 6 (R136). -/
def execDecCloseBadfcs (d : Nat) (s : State) : Host.Outcome State Fault Refusal :=
  onRow d s fun x =>
    match x.ctl with
    | .idle => none
    | .inFrame _ esc size fcs =>
      if esc = false ∧ Config.minSize ≤ size ∧ fcs ≠ Config.fcsGood then some (rowBadFcs d x size fcs) else none

/-- DEC_UNESCAPE, row 7: unescape, clear `dec.esc`, then the resolved byte (R137, R140). -/
def execDecUnescape (d : Nat) (b : Byte) (s : State) : Host.Outcome State Fault Refusal :=
  onRow d s fun x =>
    match x.ctl with
    | .idle => none
    | .inFrame hdr esc size fcs =>
      if esc = true ∧ b ≠ Config.flag then some (rowResolve s.params.decCap d x (b ^^^ Config.xmask) hdr size fcs)
      else none

/-- DEC_ESC_MARK, row 8 (R138). -/
def execDecEscMark (d : Nat) (s : State) : Host.Outcome State Fault Refusal :=
  onRow d s fun x =>
    match x.ctl with
    | .idle => none
    | .inFrame _ esc _ _ => if esc then none else some (rowEscMark x)

/-- DEC_LITERAL, row 9: the byte as it is, then the resolved byte (R139, R140). -/
def execDecLiteral (d : Nat) (b : Byte) (s : State) : Host.Outcome State Fault Refusal :=
  onRow d s fun x =>
    match x.ctl with
    | .idle => none
    | .inFrame hdr esc size fcs =>
      if esc = false ∧ b ≠ Config.esc ∧ b ≠ Config.flag then some (rowResolve s.params.decCap d x b hdr size fcs)
      else none

/-- DEC_HDR_MATCH, row 10 (R140, R141). -/
def execDecHdrMatch (d : Nat) (r : Byte) (s : State) : Host.Outcome State Fault Refusal :=
  onRow d s fun x =>
    match x.ctl with
    | .idle => none
    | .inFrame hdr esc size fcs =>
      if expectedHdr hdr = some r then some (rowHdrMatch x r hdr esc size fcs) else none

/-- DEC_HDR_BAD, row 11 (R140, R142). -/
def execDecHdrBad (d : Nat) (r : Byte) (s : State) : Host.Outcome State Fault Refusal :=
  onRow d s fun x =>
    match x.ctl with
    | .idle => none
    | .inFrame hdr _ _ _ =>
      if hdr < 2 ∧ expectedHdr hdr ≠ some r then some (rowAbort d x .badHeader) else none

/-- DEC_STORE, row 12 (R140, R143). -/
def execDecStore (d : Nat) (r : Byte) (s : State) : Host.Outcome State Fault Refusal :=
  onRow d s fun x =>
    match x.ctl with
    | .idle => none
    | .inFrame hdr esc size fcs =>
      if hdr = 2 ∧ size < s.params.decCap then some (rowStore x r hdr esc size fcs) else none

/-- DEC_OVERSIZE, row 13 (R140, R144): `r` is neither stored nor kept in a checksum. -/
def execDecOversize (d : Nat) (_r : Byte) (s : State) : Host.Outcome State Fault Refusal :=
  onRow d s fun x =>
    match x.ctl with
    | .idle => none
    | .inFrame hdr _ size _ =>
      if hdr = 2 ∧ s.params.decCap ≤ size then some (rowAbort d x .oversize) else none

end Sys2Proof.Machine
end

