-- ==== Sys2Proof/WellFormed.lean ====
section
/-! DEFINITION. Which instructions the opcode table can spell: a class of bytes is named only with a byte of that class. -/

namespace Sys2Proof

/-- The byte condition of each row of spec/opcode_table.json. Operands of every other form may take every value
(00_scope.md R6, 30_encoding.md R67). -/
def Instr.wellFormed : Instr → Bool
  | .tblRead _ => true
  | .fcsUpdate _ _ => true
  | .encProcess _ _ _ => true
  | .decByte _ _ => true
  | .decProcess _ _ => true
  | .reset _ => true
  | .reservedOpsel0 _ => true
  | .reservedOpsel7 _ => true
  | .reservedOpsel8 _ => true
  | .reservedOpsel9 _ => true
  | .reservedOpselA _ => true
  | .reservedOpselB _ => true
  | .reservedOpselC _ => true
  | .reservedOpselD _ => true
  | .reservedOpselE _ => true
  | .reservedOpselF _ => true
  | .fcsFold _ _ => true
  | .stuffEsc => true
  | .stuffFlag => true
  -- R70: every byte other than 7D and 7E
  | .stuffPass b => b != Config.esc && b != Config.flag
  | .decIdleFlag _ => true
  -- R69 row 2: b != 0x7E
  | .decIdleOther _ b => b != Config.flag
  | .decEscFlag _ => true
  | .decCloseShort _ => true
  | .decCloseGood _ => true
  | .decCloseBadfcs _ => true
  -- R69 row 7: b != 0x7E
  | .decUnescape _ b => b != Config.flag
  | .decEscMark _ => true
  -- R69 row 9: b != 0x7D, b != 0x7E
  | .decLiteral _ b => b != Config.esc && b != Config.flag
  -- R69 row 10: r == HDR[hdr], so r is one of the two header bytes
  | .decHdrMatch _ r => r == Config.addr || r == Config.ctrl
  | .decHdrBad _ _ => true
  | .decStore _ _ => true
  | .decOversize _ _ => true

end Sys2Proof
end

