-- ==== Sys2Proof/Decode.lean ====
section
/-! DEFINITION. From the form in which the host hands an operation over to the instruction it spells, and back: the packed word
of 30_encoding.md R67, the stuffer's classes (R70) and the decoder's classes (R69). Total: what spells no operation is
refused by name (R68). -/

namespace Sys2Proof

open Sys2Proof.Machine

/-! ## Packed words (R67, R68) -/

/-- The instruction `i`, if the must-be-zero fields of its form are zero. -/
def ifZero (opsel : Nat) (zero : Bool) (i : Instr) : Except Refusal Instr :=
  if zero then .ok i else .error (.mustBeZero opsel)

/-- The operation a packed command word spells. OPSEL 3 and 5 have no packed form (log entry 7). -/
def decodeWord (w : CmdWord) : Except Refusal Instr :=
  match (opselField w).toNat with
  | 0 => .ok (.reservedOpsel0 (restField w))
  | 1 => ifZero 1 (instField w == 0 && f16Field w == 0) (.tblRead (b8Field w))
  | 2 => ifZero 2 (instField w == 0) (.fcsUpdate (f16Field w) (b8Field w))
  | 3 => .error (.noPackedForm 3)
  | 4 => ifZero 4 (f16Field w == 0) (.decByte (instField w).toNat (b8Field w))
  | 5 => .error (.noPackedForm 5)
  | 6 => ifZero 6 (f16Field w == 0 && b8Field w == 0) (.reset (instField w).toNat)
  | 7 => .ok (.reservedOpsel7 (restField w))
  | 8 => .ok (.reservedOpsel8 (restField w))
  | 9 => .ok (.reservedOpsel9 (restField w))
  | 10 => .ok (.reservedOpselA (restField w))
  | 11 => .ok (.reservedOpselB (restField w))
  | 12 => .ok (.reservedOpselC (restField w))
  | 13 => .ok (.reservedOpselD (restField w))
  | 14 => .ok (.reservedOpselE (restField w))
  | _ => .ok (.reservedOpselF (restField w))

/-! ## The stuffer's classes (R70) -/

/-- The class of a byte at the stuffer. -/
def classifyStuff (b : Byte) : Instr :=
  if b = Config.esc then .stuffEsc else if b = Config.flag then .stuffFlag else .stuffPass b

/-! ## The decoder's classes (R69): the first matching row -/

/-- Rows 1 to 9, for a byte `b` at decoder `d`. -/
def classifyWire (d : Nat) (b : Byte) : Ctl → Instr
  | .idle => if b = Config.flag then .decIdleFlag d else .decIdleOther d b
  | .inFrame _ esc size fcs =>
    if b = Config.flag then
      if esc then .decEscFlag d
      else if size < Config.minSize then .decCloseShort d
      else if fcs = Config.fcsGood then .decCloseGood d
      else .decCloseBadfcs d
    else if esc then .decUnescape d b
    else if b = Config.esc then .decEscMark d
    else .decLiteral d b

/-- Rows 10 to 13, for a resolved byte `r` at decoder `d`; in `Idle` no byte is resolved. -/
def classifyResolved (cap d : Nat) (r : Byte) : Ctl → Option Instr
  | .idle => none
  | .inFrame hdr _ size _ =>
    match expectedHdr hdr with
    | some h => some (if r = h then .decHdrMatch d r else .decHdrBad d r)
    | none => some (if size < cap then .decStore d r else .decOversize d r)

/-! ## Every command -/

/-- The instruction that command `c` spells in state `s`. Only a wire byte and a resolved byte depend on the state: their
rows are chosen by the state of the decoder they reach (R69). -/
def decode (s : State) (c : Cmd) : Except Refusal Instr :=
  match c with
  | .packed w => decodeWord w
  | .encode p size out => .ok (.encProcess p size out)
  | .chunk d bytes => .ok (.decProcess d bytes)
  | .feed d b => .ok (.decByte d b)
  | .resetInst d => .ok (.reset d)
  | .fold f bytes => .ok (.fcsFold f bytes)
  | .stuffer b => .ok (classifyStuff b)
  | .wire d b =>
    match s.decs[d]? with
    | none => .error (.noSuchDecoder d)
    | some x => .ok (classifyWire d b x.ctl)
  | .resolved d r =>
    match s.decs[d]? with
    | none => .error (.noSuchDecoder d)
    | some x =>
      match classifyResolved s.params.decCap d r x.ctl with
      | none => .error .rowNotMatched
      | some i => .ok i

/-! ## Encoding, from the same tables -/

/-- The packed word of an instruction, where it has one (R67). Instance numbers above 15 have none. -/
def encodeWord : Instr → Option CmdWord
  | .tblRead i => some (packWord 0x1 0 0 i)
  | .fcsUpdate f b => some (packWord 0x2 0 f b)
  | .encProcess _ _ _ => none
  | .decByte d b => if d < 16 then some (packWord 0x4 (BitVec.ofNat 4 d) 0 b) else none
  | .decProcess _ _ => none
  | .reset d => if d < 16 then some (packWord 0x6 (BitVec.ofNat 4 d) 0 0) else none
  | .reservedOpsel0 rest => some (0x0#4 ++ rest)
  | .reservedOpsel7 rest => some (0x7#4 ++ rest)
  | .reservedOpsel8 rest => some (0x8#4 ++ rest)
  | .reservedOpsel9 rest => some (0x9#4 ++ rest)
  | .reservedOpselA rest => some (0xA#4 ++ rest)
  | .reservedOpselB rest => some (0xB#4 ++ rest)
  | .reservedOpselC rest => some (0xC#4 ++ rest)
  | .reservedOpselD rest => some (0xD#4 ++ rest)
  | .reservedOpselE rest => some (0xE#4 ++ rest)
  | .reservedOpselF rest => some (0xF#4 ++ rest)
  | .fcsFold _ _ => none
  | .stuffEsc => none
  | .stuffFlag => none
  | .stuffPass _ => none
  | .decIdleFlag _ => none
  | .decIdleOther _ _ => none
  | .decEscFlag _ => none
  | .decCloseShort _ => none
  | .decCloseGood _ => none
  | .decCloseBadfcs _ => none
  | .decUnescape _ _ => none
  | .decEscMark _ => none
  | .decLiteral _ _ => none
  | .decHdrMatch _ _ => none
  | .decHdrBad _ _ => none
  | .decStore _ _ => none
  | .decOversize _ _ => none

/-- The command that carries an instruction: its packed word where it has one, else its own form. -/
def encode (i : Instr) : Cmd :=
  match i with
  | .tblRead b => .packed (packWord 0x1 0 0 b)
  | .fcsUpdate f b => .packed (packWord 0x2 0 f b)
  | .encProcess p size out => .encode p size out
  | .decByte d b => if d < 16 then .packed (packWord 0x4 (BitVec.ofNat 4 d) 0 b) else .feed d b
  | .decProcess d bytes => .chunk d bytes
  | .reset d => if d < 16 then .packed (packWord 0x6 (BitVec.ofNat 4 d) 0 0) else .resetInst d
  | .reservedOpsel0 rest => .packed (0x0#4 ++ rest)
  | .reservedOpsel7 rest => .packed (0x7#4 ++ rest)
  | .reservedOpsel8 rest => .packed (0x8#4 ++ rest)
  | .reservedOpsel9 rest => .packed (0x9#4 ++ rest)
  | .reservedOpselA rest => .packed (0xA#4 ++ rest)
  | .reservedOpselB rest => .packed (0xB#4 ++ rest)
  | .reservedOpselC rest => .packed (0xC#4 ++ rest)
  | .reservedOpselD rest => .packed (0xD#4 ++ rest)
  | .reservedOpselE rest => .packed (0xE#4 ++ rest)
  | .reservedOpselF rest => .packed (0xF#4 ++ rest)
  | .fcsFold f bytes => .fold f bytes
  | .stuffEsc => .stuffer Config.esc
  | .stuffFlag => .stuffer Config.flag
  | .stuffPass b => .stuffer b
  | .decIdleFlag d => .wire d Config.flag
  | .decIdleOther d b => .wire d b
  | .decEscFlag d => .wire d Config.flag
  | .decCloseShort d => .wire d Config.flag
  | .decCloseGood d => .wire d Config.flag
  | .decCloseBadfcs d => .wire d Config.flag
  | .decUnescape d b => .wire d b
  | .decEscMark d => .wire d Config.esc
  | .decLiteral d b => .wire d b
  | .decHdrMatch d r => .resolved d r
  | .decHdrBad d r => .resolved d r
  | .decStore d r => .resolved d r
  | .decOversize d r => .resolved d r

/-! ## The opcode table's words -/

/-- The command of the opcode table's word `w` of `nbits` bits: a PACKED32 word is handed over whole (a command word has no
byte order, 20_memory.md R45), and an 8-bit word is a byte at the stuffer, the one 8-bit format whose classes do not depend
on the state (log entry 9). No other width is in the table. -/
def cmdOfTableWord (nbits w : Nat) : Option Cmd :=
  if nbits = 32 then some (.packed (BitVec.ofNat 32 w))
  else if nbits = 8 then some (.stuffer (BitVec.ofNat 8 w))
  else none

/-- The instruction the decoder reads from the table's word. Neither form depends on the state. -/
def decodeTableWord (nbits w : Nat) : Option Instr :=
  match cmdOfTableWord nbits w with
  | none => none
  | some c =>
    match decode State.reset c with
    | .ok i => some i
    | .error _ => none

/-- `s` with the table's word as the next operation the host issues. -/
def placeTableWord (s : State) (nbits w : Nat) : State :=
  match cmdOfTableWord nbits w with
  | none => s
  | some c => issueFirst s c

end Sys2Proof
end

