-- ==== Sys2Proof/Machine/Encoder.lean ====
section
/-! DEFINITION. The frame encoder (41_encoder.md): the stuffer, ENC_PROCESS, and the stuffer's three classes. -/

namespace Sys2Proof.Machine

/-- `stuff(b)` (R100). -/
def stuff (b : Byte) : List Byte :=
  if b = Config.esc ∨ b = Config.flag then [Config.esc, b ^^^ Config.xmask] else [b]

/-- `stuffall(s)` (30_encoding.md R62). -/
def stuffAll (bytes : List Byte) : List Byte := bytes.flatMap stuff

/-- The working registers of one ENC_PROCESS, `enc.pos` and `enc.fcs`, and the caller's buffer it writes (10_state.md R29).
They exist only within the operation. -/
structure EncWork where
  /-- `enc.pos`: the next output offset. -/
  pos : Nat
  /-- `enc.fcs`: the running checksum. -/
  fcs : Word
  /-- The contents of `ENC_OUT`. -/
  out : Mem
deriving DecidableEq, Repr

/-- `put(y)` (R101). -/
def encPut (e : EncWork) (y : Byte) : EncWork :=
  { e with pos := e.pos + 1, out := memWrite e.out e.pos y }

/-- `for y in ys: put(y)`. -/
def encPutAll (e : EncWork) (ys : List Byte) : EncWork := ys.foldl encPut e

/-- `cs_stuff(x)` (R101): fold the unescaped byte, then stuff it. -/
def encCsStuff (e : EncWork) (x : Byte) : EncWork :=
  encPutAll { e with fcs := fcsUpdate e.fcs x } (stuff x)

/-- Steps 1 to 3 of R102: the leading flag, the header and the payload (R103, R104, R105). -/
def encBody (payload : List Byte) (out : Mem) : EncWork :=
  payload.foldl encCsStuff
    (encCsStuff (encCsStuff (encPut { pos := 0, fcs := Config.fcsInit, out := out } Config.flag) Config.addr) Config.ctrl)

/-- Steps 4 to 6 of R102: the FCS, low byte first and not folded, and the trailing flag (R106, R107, R108). -/
def encTail (e : EncWork) : EncWork :=
  encPut
    (encPutAll (encPutAll e (stuff (loByte (e.fcs ^^^ Config.fcsXorOut)))) (stuff (hiByte (e.fcs ^^^ Config.fcsXorOut))))
    Config.flag

/-- ENC_PROCESS (R102). The refusal is tested first, then the overflow, before any write (60_exceptions.md R177). -/
def execEncProcess (payload : List Byte) (size out : Nat) (s : State) : Host.Outcome State Fault Refusal :=
  if payloadTooLong s.params.encMaxN payload.length then .refused (.payloadTooLong payload.length)
  else if bufferTooSmall payload.length size then .next (recordFault s (.encOverflow payload.length size))
  else .next (emit (putEncOut s out (encTail (encBody payload (encBuf s out))).out)
    (.length (encTail (encBody payload (encBuf s out))).pos))

/-- STUFF_ESC (R100): `stuff(0x7D)`. -/
def execStuffEsc (s : State) : Host.Outcome State Fault Refusal :=
  .next (emit s (.bytes (stuff Config.esc)))

/-- STUFF_FLAG (R100): `stuff(0x7E)`. -/
def execStuffFlag (s : State) : Host.Outcome State Fault Refusal :=
  .next (emit s (.bytes (stuff Config.flag)))

/-- STUFF_PASS (R100): `stuff(b)` of a byte that is neither 0x7D nor 0x7E; the row does not match those two (R70). -/
def execStuffPass (b : Byte) (s : State) : Host.Outcome State Fault Refusal :=
  if b = Config.esc ∨ b = Config.flag then .refused .rowNotMatched
  else .next (emit s (.bytes (stuff b)))

/-! ## The frame the spec defines, to which ENC_PROCESS's bytes are compared -/

/-- `fcsv` of R62. -/
def frameFcs (payload : List Byte) : Word :=
  fcsFoldBytes Config.fcsInit (Config.addr :: Config.ctrl :: payload) ^^^ Config.fcsXorOut

/-- `U`, the unstuffed body of R62. -/
def frameBody (payload : List Byte) : List Byte :=
  Config.addr :: Config.ctrl :: payload ++ [loByte (frameFcs payload), hiByte (frameFcs payload)]

/-- `frame(P)` of 30_encoding.md R62. -/
def frameOf (payload : List Byte) : List Byte :=
  Config.flag :: stuffAll (frameBody payload) ++ [Config.flag]

end Sys2Proof.Machine
end

