-- ==== Sys2Proof/Machine/Reserved.lean ====
section
/-! DEFINITION. The ten reserved values of OPSEL (30_encoding.md R68): each spells no operation and is refused, with no step
(60_exceptions.md R175). Each row has a definition of its own. -/

namespace Sys2Proof.Machine

/-- R68, R175: a reserved command word has no step, whatever its other bits. -/
def refuseReserved (opsel : Nat) : Host.Outcome State Fault Refusal := .refused (.reservedOpsel opsel)

/-- RESERVED_OPSEL_0 (R68). -/
def execReservedOpsel0 (_rest : BitVec 28) (_s : State) : Host.Outcome State Fault Refusal := refuseReserved 0

/-- RESERVED_OPSEL_7 (R68). -/
def execReservedOpsel7 (_rest : BitVec 28) (_s : State) : Host.Outcome State Fault Refusal := refuseReserved 7

/-- RESERVED_OPSEL_8 (R68). -/
def execReservedOpsel8 (_rest : BitVec 28) (_s : State) : Host.Outcome State Fault Refusal := refuseReserved 8

/-- RESERVED_OPSEL_9 (R68). -/
def execReservedOpsel9 (_rest : BitVec 28) (_s : State) : Host.Outcome State Fault Refusal := refuseReserved 9

/-- RESERVED_OPSEL_A (R68). -/
def execReservedOpselA (_rest : BitVec 28) (_s : State) : Host.Outcome State Fault Refusal := refuseReserved 10

/-- RESERVED_OPSEL_B (R68). -/
def execReservedOpselB (_rest : BitVec 28) (_s : State) : Host.Outcome State Fault Refusal := refuseReserved 11

/-- RESERVED_OPSEL_C (R68). -/
def execReservedOpselC (_rest : BitVec 28) (_s : State) : Host.Outcome State Fault Refusal := refuseReserved 12

/-- RESERVED_OPSEL_D (R68). -/
def execReservedOpselD (_rest : BitVec 28) (_s : State) : Host.Outcome State Fault Refusal := refuseReserved 13

/-- RESERVED_OPSEL_E (R68). -/
def execReservedOpselE (_rest : BitVec 28) (_s : State) : Host.Outcome State Fault Refusal := refuseReserved 14

/-- RESERVED_OPSEL_F (R68). -/
def execReservedOpselF (_rest : BitVec 28) (_s : State) : Host.Outcome State Fault Refusal := refuseReserved 15

end Sys2Proof.Machine
end

