-- ==== Sys2Proof/Machine/ResetOp.lean ====
section
/-! DEFINITION. The RESET operation (70_reset_and_hazards.md R190). -/

namespace Sys2Proof.Machine

/-- RESET (R190): `dec(d) <- Idle`; `DEC_BUF(d)`, the other instances, the faults and everything else stay. -/
def execReset (d : Nat) (s : State) : Host.Outcome State Fault Refusal :=
  withDecoder d s fun x => .next (putDecoder s d { x with ctl := .idle })

end Sys2Proof.Machine
end

