-- ==== Sys2Proof/Machine/Dispatch.lean ====
section
/-! DEFINITION. One arm per instruction, each one direct call of that instruction's meaning. -/

namespace Sys2Proof.Machine

def exec (i : Instr) (s : State) : Host.Outcome State Fault Refusal :=
  match i with
  | .tblRead b => Sys2Proof.Machine.execTblRead b s
  | .fcsUpdate f b => Sys2Proof.Machine.execFcsUpdate f b s
  | .encProcess payload size out => Sys2Proof.Machine.execEncProcess payload size out s
  | .decByte d b => Sys2Proof.Machine.execDecByte d b s
  | .decProcess d chunk => Sys2Proof.Machine.execDecProcess d chunk s
  | .reset d => Sys2Proof.Machine.execReset d s
  | .reservedOpsel0 rest => Sys2Proof.Machine.execReservedOpsel0 rest s
  | .reservedOpsel7 rest => Sys2Proof.Machine.execReservedOpsel7 rest s
  | .reservedOpsel8 rest => Sys2Proof.Machine.execReservedOpsel8 rest s
  | .reservedOpsel9 rest => Sys2Proof.Machine.execReservedOpsel9 rest s
  | .reservedOpselA rest => Sys2Proof.Machine.execReservedOpselA rest s
  | .reservedOpselB rest => Sys2Proof.Machine.execReservedOpselB rest s
  | .reservedOpselC rest => Sys2Proof.Machine.execReservedOpselC rest s
  | .reservedOpselD rest => Sys2Proof.Machine.execReservedOpselD rest s
  | .reservedOpselE rest => Sys2Proof.Machine.execReservedOpselE rest s
  | .reservedOpselF rest => Sys2Proof.Machine.execReservedOpselF rest s
  | .fcsFold f bytes => Sys2Proof.Machine.execFcsFold f bytes s
  | .stuffEsc => Sys2Proof.Machine.execStuffEsc s
  | .stuffFlag => Sys2Proof.Machine.execStuffFlag s
  | .stuffPass b => Sys2Proof.Machine.execStuffPass b s
  | .decIdleFlag d => Sys2Proof.Machine.execDecIdleFlag d s
  | .decIdleOther d b => Sys2Proof.Machine.execDecIdleOther d b s
  | .decEscFlag d => Sys2Proof.Machine.execDecEscFlag d s
  | .decCloseShort d => Sys2Proof.Machine.execDecCloseShort d s
  | .decCloseGood d => Sys2Proof.Machine.execDecCloseGood d s
  | .decCloseBadfcs d => Sys2Proof.Machine.execDecCloseBadfcs d s
  | .decUnescape d b => Sys2Proof.Machine.execDecUnescape d b s
  | .decEscMark d => Sys2Proof.Machine.execDecEscMark d s
  | .decLiteral d b => Sys2Proof.Machine.execDecLiteral d b s
  | .decHdrMatch d r => Sys2Proof.Machine.execDecHdrMatch d r s
  | .decHdrBad d r => Sys2Proof.Machine.execDecHdrBad d r s
  | .decStore d r => Sys2Proof.Machine.execDecStore d r s
  | .decOversize d r => Sys2Proof.Machine.execDecOversize d r s

end Sys2Proof.Machine
end

