-- ==== Sys2Proof/Machine/Step.lean ====
section
/-! DEFINITION. One step: the host issues its next operation, and the block runs it (10_state.md R32, 00_scope.md R5). -/

namespace Sys2Proof.Machine

/-- One step. With nothing issued the block waits and holds its state (60_exceptions.md R184). -/
def step (s : State) : Host.Outcome State Fault Refusal :=
  match fetch s with
  | none => .next s
  | some (c, s') =>
    match decode s' c with
    | .error r => .refused r
    | .ok i => exec i s'

/-- `s` with the opcode table's word as the next operation the host issues (log entry 3). -/
def State.withFetchWord (s : State) (nbits w : Nat) : State := placeTableWord s nbits w

end Sys2Proof.Machine
end

