-- ==== Sys2Proof/Certificates/Slice0/Obligations.lean ====
section
/-! DEFINITION. The statements for the provers, each from the spec's numbered rules. Where a rule carries the spec's own mark
[derived: ...], the statement has basis 'derived' in OBLIGATIONS.json and its docstring says so. Every statement holds for all
parameters `DEC_CAP`, `ENC_MAX_N` and `N_DEC`, which stand in State (log entry 1). -/

open Sys2Proof Sys2Proof.Machine

/-! ## The FCS16 unit (40_fcs16.md) -/

/-- R84 with R80: TBL_READ's encoding, its result `T[i]` at every index, nothing else changed, the rule's example, and that
`T[i]` is what the generator's loop of eight passes gives. -/
def Obligations.TblReadReturnsTableEntry : Prop :=
  (∀ i : Byte, decodeWord (packWord 0x1 0 0 i) = .ok (.tblRead i)) ∧
  (∀ (i : Byte) (s : State),
    exec (.tblRead i) s = .next { s with outputs := s.outputs ++ [.word (fcsTable i)] }) ∧
  (∀ s : State, exec (.tblRead 0x80) s = .next { s with outputs := s.outputs ++ [.word 0x8408] }) ∧
  ∀ i : Byte,
    fcsTable i =
      (fun b : Word => if b.getLsbD 0 = true then (b >>> 1) ^^^ 0x8408 else b >>> 1)^[8] (i.setWidth 16)

/-- R83: FCS_UPDATE's encoding, its result by the formula of the rule for every `f` and `b`, nothing else changed, the corner
cases and the example. -/
def Obligations.FcsUpdateFoldsOneByte : Prop :=
  (∀ (f : Word) (b : Byte), decodeWord (packWord 0x2 0 f b) = .ok (.fcsUpdate f b)) ∧
  (∀ (f : Word) (b : Byte) (s : State),
    exec (.fcsUpdate f b) s =
      .next { s with outputs := s.outputs ++
        [.word ((f >>> 8) ^^^ fcsTable (((f ^^^ b.setWidth 16) &&& 0xFF).setWidth 8))] }) ∧
  (∀ s : State, exec (.fcsUpdate 0 0) s = .next { s with outputs := s.outputs ++ [.word 0] }) ∧
  (∀ s : State, exec (.fcsUpdate 0xFFFF 0xFF) s = .next { s with outputs := s.outputs ++ [.word 0x00FF] }) ∧
  ∃ (f : Word) (b : Byte), fcsUpdate (fcsUpdate f b) b ≠ f

/-- R74, row FCS_FOLD: an empty fold gives its start value, and a fold of `b0 b1 ...` from `f` is the fold of `b1 ...` from
the result of FCS_UPDATE `f, b0`; it completes for every sequence and hands over the one result (that only the last result
is handed over is the model's choice, log entry 9). -/
def Obligations.FcsFoldIsRepeatedFcsUpdate : Prop :=
  (∀ (f : Word) (s : State), exec (.fcsFold f []) s = .next { s with outputs := s.outputs ++ [.word f] }) ∧
  (∀ (f : Word) (b : Byte) (bs : List Byte) (s : State),
    exec (.fcsFold f (b :: bs)) s = exec (.fcsFold (fcsUpdate f b) bs) s) ∧
  ∀ (f : Word) (bs : List Byte) (s : State),
    exec (.fcsFold f bs) s = .next { s with outputs := s.outputs ++ [.word (bs.foldl fcsUpdate f)] }

/-- The listing of 40_fcs16.md section 1 (R81, which the spec marks [derived]): its 256 values are the table's. -/
def Obligations.FcsTableMatchesTheListing : Prop :=
  fcsTableListing.length = 256 ∧ ∀ i : Byte, fcsTableListing[i.toNat]? = some (fcsTable i)

/-- R82 (which the spec marks [derived]): the table is linear over XOR, and its entries at 0 and at the powers of two. -/
def Obligations.FcsTableIsXorLinear : Prop :=
  (∀ i j : Byte, fcsTable (i ^^^ j) = fcsTable i ^^^ fcsTable j) ∧
  fcsTable 0x00 = 0x0000 ∧ fcsTable 0x01 = 0x1189 ∧ fcsTable 0x02 = 0x2312 ∧ fcsTable 0x04 = 0x4624 ∧
  fcsTable 0x08 = 0x8C48 ∧ fcsTable 0x10 = 0x1081 ∧ fcsTable 0x20 = 0x2102 ∧ fcsTable 0x40 = 0x4204 ∧
  fcsTable 0x80 = 0x8408

/-- R87 (which the spec marks [derived]): the table form of the fold equals the bit-serial form, for every `f` and `b`. -/
def Obligations.FcsUpdateEqualsBitSerialForm : Prop :=
  ∀ (f : Word) (b : Byte),
    fcsUpdate f b =
      (fun x : Word => if x.getLsbD 0 = true then (x >>> 1) ^^^ 0x8408 else x >>> 1)^[8] (f ^^^ b.setWidth 16)

/-- R86, the residue law: for every byte sequence, appending the complemented checksum, low byte first, makes the running
checksum 0xF0B8. -/
def Obligations.FcsResidueLaw : Prop :=
  ∀ (bytes : List Byte) (fcsv : Word), fcsv = bytes.foldl fcsUpdate 0xFFFF ^^^ 0xFFFF →
    (bytes ++ [fcsv.extractLsb' 0 8, fcsv.extractLsb' 8 8]).foldl fcsUpdate 0xFFFF = 0xF0B8

/-- R30, R74, R83, R84, R100 (frame): an operation that only returns a result changes nothing but the run record: no
instance, no byte of any buffer, no fault, no parameter. That FCS_FOLD and the stuffer's rows, run as instructions of their
own, hand over exactly one output each is the model's choice (log entry 9). -/
def Obligations.ResultOnlyOperationsChangeNothingElse : Prop :=
  ∀ (i : Instr) (s t : State),
    ((∃ b, i = .tblRead b) ∨ (∃ f b, i = .fcsUpdate f b) ∨ (∃ f bs, i = .fcsFold f bs) ∨ i = .stuffEsc ∨
      i = .stuffFlag ∨ ∃ b, i = .stuffPass b) →
    exec i s = .next t →
    t.params = s.params ∧ t.decs = s.decs ∧ t.encOut = s.encOut ∧ t.faults = s.faults ∧ t.pending = s.pending ∧
    (∀ d a, decBufRead t d a = decBufRead s d a) ∧ (∀ out a, encOutRead t out a = encOutRead s out a) ∧
    ∃ o : Output, t.outputs = s.outputs ++ [o]

/-! ## The encoder (41_encoder.md) -/

/-- R70: the three classes of the stuffer and their outputs, and that every byte falls into exactly the class its value
gives. That a class run as an instruction hands its bytes to the host is the model's choice (log entry 9). -/
def Obligations.StufferClassesGiveTheirBytes : Prop :=
  (∀ s : State, exec .stuffEsc s = .next { s with outputs := s.outputs ++ [.bytes [0x7D, 0x5D]] }) ∧
  (∀ s : State, exec .stuffFlag s = .next { s with outputs := s.outputs ++ [.bytes [0x7D, 0x5E]] }) ∧
  (∀ (b : Byte) (s : State), b ≠ 0x7D → b ≠ 0x7E →
    exec (.stuffPass b) s = .next { s with outputs := s.outputs ++ [.bytes [b]] }) ∧
  ∀ (b : Byte) (s : State),
    decode s (.stuffer b) = .ok (if b = 0x7D then .stuffEsc else if b = 0x7E then .stuffFlag else .stuffPass b)

/-- R100: `stuff(b)` for every byte, its length, and that no output byte is 0x7E. -/
def Obligations.StuffedByteShape : Prop :=
  ∀ b : Byte,
    (b = 0x7D ∨ b = 0x7E → stuff b = [0x7D, b ^^^ 0x20]) ∧
    (¬(b = 0x7D ∨ b = 0x7E) → stuff b = [b]) ∧
    0x7E ∉ stuff b ∧ ((stuff b).length = 1 ∨ (stuff b).length = 2)

/-- R102 with R62 and R117: ENC_PROCESS in full. A payload over ENC_MAX_N is refused; else a buffer below `2n + 8` records
`ENC_OVERFLOW(n, S)` and writes nothing; else the buffer holds `frame(P)` of R62 from offset 0, every other offset of it and
every other buffer is as before, `L` is handed over, and nothing else changes. The last clause is the rule's example. The
numbered buffers are the model's choice (log entry 5), and that the overflow is a next state is deduced (log entry 4). -/
def Obligations.EncProcessWritesTheFrame : Prop :=
  (∀ (payload : List Byte) (size out : Nat) (s : State),
    let fcsv : Word := (0xFF :: 0x03 :: payload).foldl fcsUpdate 0xFFFF ^^^ 0xFFFF
    let frame : List Byte :=
      [0x7E] ++ (0xFF :: 0x03 :: payload ++ [fcsv.extractLsb' 0 8, fcsv.extractLsb' 8 8]).flatMap stuff ++ [0x7E]
    (∀ m, s.params.encMaxN = some m → m < payload.length →
      exec (.encProcess payload size out) s = .refused (.payloadTooLong payload.length)) ∧
    ((∀ m, s.params.encMaxN = some m → payload.length ≤ m) → size < 2 * payload.length + 8 →
      exec (.encProcess payload size out) s =
        .next { s with faults := s.faults ++ [.encOverflow payload.length size] }) ∧
    ((∀ m, s.params.encMaxN = some m → payload.length ≤ m) → 2 * payload.length + 8 ≤ size →
      ∃ t, exec (.encProcess payload size out) s = .next t ∧
        t = { s with encOut := t.encOut, outputs := s.outputs ++ [.length frame.length] } ∧
        (∀ a, encOutRead t out a = if a < frame.length then frame[a]? else encOutRead s out a) ∧
        ∀ o a, o ≠ out → encOutRead t o a = encOutRead s o a)) ∧
  frameOf [0x41, 0x42] = [0x7E, 0xFF, 0x03, 0x41, 0x42, 0xC0, 0xE8, 0x7E]

/-- R110 (which the spec marks [derived]): the returned length is `n + 6 + e`, with `e` the bytes of the payload and the FCS
that are 0x7D or 0x7E, and lies between `n + 6` and `2n + 8`. -/
def Obligations.EncodedLengthBounds : Prop :=
  ∀ (payload : List Byte) (size out : Nat) (s t : State),
    2 * payload.length + 8 ≤ size → exec (.encProcess payload size out) s = .next t →
    ∃ n, t.outputs = s.outputs ++ [.length n] ∧
      n = payload.length + 6 +
        (payload ++ [loByte (frameFcs payload), hiByte (frameFcs payload)]).countP (fun b => b == 0x7D || b == 0x7E) ∧
      payload.length + 6 ≤ n ∧ n ≤ 2 * payload.length + 8

/-- R114, R115 (which the spec marks [derived]): the first and the last byte written are flags, no byte between them is, and
offsets 1 and 2 hold the header. -/
def Obligations.EncodedFlagAndHeaderPositions : Prop :=
  ∀ (payload : List Byte) (size out : Nat) (s t : State),
    2 * payload.length + 8 ≤ size → exec (.encProcess payload size out) s = .next t →
    ∃ n, t.outputs = s.outputs ++ [.length n] ∧ encOutRead t out 0 = some 0x7E ∧ encOutRead t out (n - 1) = some 0x7E ∧
      encOutRead t out 1 = some 0xFF ∧ encOutRead t out 2 = some 0x03 ∧
      ∀ a, 0 < a → a < n - 1 → encOutRead t out a ≠ some 0x7E

/-- R113: once the precondition holds, the bytes written and `L` are a function of the payload alone, in any two states, with
any two buffers; and the encoder leaves no state behind. -/
def Obligations.EncoderIsStateless : Prop :=
  ∀ (payload : List Byte) (size1 size2 out1 out2 : Nat) (s1 s2 t1 t2 : State),
    2 * payload.length + 8 ≤ size1 → 2 * payload.length + 8 ≤ size2 →
    exec (.encProcess payload size1 out1) s1 = .next t1 → exec (.encProcess payload size2 out2) s2 = .next t2 →
    (∃ n, t1.outputs = s1.outputs ++ [.length n] ∧ t2.outputs = s2.outputs ++ [.length n] ∧
      ∀ a, a < n → encOutRead t1 out1 a = encOutRead t2 out2 a ∧ (encOutRead t1 out1 a).isSome) ∧
    t1.decs = s1.decs ∧ t1.params = s1.params ∧ t1.faults = s1.faults ∧ t1.pending = s1.pending

/-! ## The decoder's rows (42_decoder.md R131 to R144), as DEC_BYTE takes them and as instructions of their own
(log entry 9).
Row 5's payload copy holds the free value of log entry 2 where the buffer was never written, and holds for every value of it. -/

/-- R131, row 1: in Idle a flag opens a fresh InFrame, without an event and without a write. -/
def Obligations.IdleFlagOpensFrame : Prop :=
  ∀ (d : Nat) (s : State) (x : Decoder), s.decs[d]? = some x → x.ctl = .idle →
    exec (.decByte d 0x7E) s = .next { s with decs := s.decs.set d { x with ctl := .inFrame 0 false 0 0xFFFF } } ∧
    exec (.decIdleFlag d) s = .next { s with decs := s.decs.set d { x with ctl := .inFrame 0 false 0 0xFFFF } }

/-- R132, row 2: in Idle any other byte changes nothing at all; so `7D` then `7E` opens a frame. -/
def Obligations.IdleIgnoresOtherBytes : Prop :=
  (∀ (d : Nat) (b : Byte) (s : State) (x : Decoder), s.decs[d]? = some x → x.ctl = .idle → b ≠ 0x7E →
    exec (.decByte d b) s = .next s ∧ exec (.decIdleOther d b) s = .next s) ∧
  ∀ (d : Nat) (s : State) (x : Decoder), s.decs[d]? = some x → x.ctl = .idle →
    exec (.decProcess d [0x7D, 0x7E]) s =
      .next { s with decs := s.decs.set d { x with ctl := .inFrame 0 false 0 0xFFFF } }

/-- R133, row 3: a flag while an escape is pending gives ESC_FLAG and Idle, also in a short frame, and bytes after it are
discarded until another flag; `7E 7D 7E` from Idle gives ESC_FLAG and leaves the decoder in Idle. -/
def Obligations.EscapedFlagAbortsFrame : Prop :=
  (∀ (d : Nat) (s : State) (x : Decoder) (hdr : Fin 3) (size : Nat) (fcs : Word) (rest : List Byte),
    s.decs[d]? = some x → x.ctl = .inFrame hdr true size fcs → 0x7E ∉ rest →
    let t : State :=
      { s with decs := s.decs.set d { x with ctl := .idle }, outputs := s.outputs ++ [.event (.diag d .escFlag)] }
    exec (.decByte d 0x7E) s = .next t ∧ exec (.decEscFlag d) s = .next t ∧
    exec (.decProcess d (0x7E :: rest)) s = .next t) ∧
  ∀ (d : Nat) (s : State) (x : Decoder), s.decs[d]? = some x → x.ctl = .idle →
    exec (.decProcess d [0x7E, 0x7D, 0x7E]) s = .next { s with outputs := s.outputs ++ [.event (.diag d .escFlag)] }

/-- R134, row 4: a closing flag with fewer than four stored bytes is silent, whatever the checksum, and re-arms. -/
def Obligations.ShortFrameIsSilent : Prop :=
  ∀ (d : Nat) (s : State) (x : Decoder) (hdr : Fin 3) (size : Nat) (fcs : Word),
    s.decs[d]? = some x → x.ctl = .inFrame hdr false size fcs → size < 4 →
    exec (.decByte d 0x7E) s = .next { s with decs := s.decs.set d { x with ctl := .inFrame 0 false 0 0xFFFF } } ∧
    exec (.decCloseShort d) s = .next { s with decs := s.decs.set d { x with ctl := .inFrame 0 false 0 0xFFFF } }

/-- R135, row 5: a closing flag with a good checksum gives FRAME_READY with length `size - 2` and re-arms; the buffer is not
written. That the event holds a copy of the payload is deduced (log entry 15), and a byte the decoder has not written is the
free value of log entry 2; this holds for every value of it. -/
def Obligations.GoodFrameIsDelivered : Prop :=
  ∀ (d : Nat) (s : State) (x : Decoder) (hdr : Fin 3) (size : Nat),
    s.decs[d]? = some x → x.ctl = .inFrame hdr false size 0xF0B8 → 4 ≤ size →
    let t : State :=
      { s with
        decs := s.decs.set d { x with ctl := .inFrame 0 false 0 0xFFFF }
        outputs := s.outputs ++ [.event (.frameReady d (size - 2)
          ((List.range (size - 2)).map fun a => (memRead x.buf a).getD (Config.decBufDraw d a)))] }
    exec (.decByte d 0x7E) s = .next t ∧ exec (.decCloseGood d) s = .next t

/-- R136, row 6: a closing flag with a bad checksum gives BAD_FCS with the checksum and `size`, and re-arms. -/
def Obligations.BadChecksumIsDiagnosed : Prop :=
  ∀ (d : Nat) (s : State) (x : Decoder) (hdr : Fin 3) (size : Nat) (fcs : Word),
    s.decs[d]? = some x → x.ctl = .inFrame hdr false size fcs → 4 ≤ size → fcs ≠ 0xF0B8 →
    let t : State :=
      { s with
        decs := s.decs.set d { x with ctl := .inFrame 0 false 0 0xFFFF }
        outputs := s.outputs ++ [.event (.diag d (.badFcs fcs size))] }
    exec (.decByte d 0x7E) s = .next t ∧ exec (.decCloseBadfcs d) s = .next t

/-- R137, row 7: with an escape pending, any byte but the flag resolves to `b ^ 0x20`, clears the escape, and goes on as a
resolved byte; `7D 7D` resolves to 0x5D. -/
def Obligations.PendingEscapeUnescapesNextByte : Prop :=
  ∀ (d : Nat) (b : Byte) (s : State) (x : Decoder) (hdr : Fin 3) (size : Nat) (fcs : Word),
    s.decs[d]? = some x → x.ctl = .inFrame hdr true size fcs → b ≠ 0x7E →
    let r := resolvedByte s.params.decCap d x (b ^^^ 0x20) hdr false size fcs
    exec (.decByte d b) s =
      .next { s with decs := s.decs.set d r.1, outputs := s.outputs ++ r.2.toList.map Output.event } ∧
    exec (.decUnescape d b) s =
      .next { s with decs := s.decs.set d r.1, outputs := s.outputs ++ r.2.toList.map Output.event }

/-- R138, row 8: an escape marker sets `dec.esc` and changes nothing else. -/
def Obligations.EscapeMarkerOnlySetsFlag : Prop :=
  ∀ (d : Nat) (s : State) (x : Decoder) (hdr : Fin 3) (size : Nat) (fcs : Word),
    s.decs[d]? = some x → x.ctl = .inFrame hdr false size fcs →
    exec (.decByte d 0x7D) s = .next { s with decs := s.decs.set d { x with ctl := .inFrame hdr true size fcs } } ∧
    exec (.decEscMark d) s = .next { s with decs := s.decs.set d { x with ctl := .inFrame hdr true size fcs } }

/-- R139, row 9: with no escape pending, every byte but 0x7D and 0x7E is itself the resolved byte. -/
def Obligations.LiteralByteIsUsedAsIs : Prop :=
  ∀ (d : Nat) (b : Byte) (s : State) (x : Decoder) (hdr : Fin 3) (size : Nat) (fcs : Word),
    s.decs[d]? = some x → x.ctl = .inFrame hdr false size fcs → b ≠ 0x7D → b ≠ 0x7E →
    let r := resolvedByte s.params.decCap d x b hdr false size fcs
    exec (.decByte d b) s =
      .next { s with decs := s.decs.set d r.1, outputs := s.outputs ++ r.2.toList.map Output.event } ∧
    exec (.decLiteral d b) s =
      .next { s with decs := s.decs.set d r.1, outputs := s.outputs ++ r.2.toList.map Output.event }

/-- R141, row 10, with the fold of R140: the expected header byte is counted and folded, not stored. That DEC_HDR_MATCH as an
instruction of its own includes the fold of R140 and keeps `dec.esc` is the model's choice (log entry 9). -/
def Obligations.HeaderByteIsMatchedAndFolded : Prop :=
  ∀ (d : Nat) (r : Byte) (s : State) (x : Decoder) (hdr : Fin 3) (esc : Bool) (size : Nat) (fcs : Word),
    s.decs[d]? = some x → x.ctl = .inFrame hdr esc size fcs → (hdr = 0 ∧ r = 0xFF) ∨ (hdr = 1 ∧ r = 0x03) →
    exec (.decHdrMatch d r) s =
      .next { s with decs := s.decs.set d { x with ctl := .inFrame (hdr + 1) esc size (fcsUpdate fcs r) } } ∧
    resolvedByte s.params.decCap d x r hdr esc size fcs =
      ({ x with ctl := .inFrame (hdr + 1) esc size (fcsUpdate fcs r) }, none)

/-- R142, row 11: any other resolved byte in the header gives BAD_HEADER and Idle; it is not stored. -/
def Obligations.WrongHeaderByteAbortsFrame : Prop :=
  ∀ (d : Nat) (r : Byte) (s : State) (x : Decoder) (hdr : Fin 3) (esc : Bool) (size : Nat) (fcs : Word),
    s.decs[d]? = some x → x.ctl = .inFrame hdr esc size fcs → (hdr = 0 ∧ r ≠ 0xFF) ∨ (hdr = 1 ∧ r ≠ 0x03) →
    exec (.decHdrBad d r) s =
      .next { s with
        decs := s.decs.set d { x with ctl := .idle }
        outputs := s.outputs ++ [.event (.diag d .badHeader)] } ∧
    resolvedByte s.params.decCap d x r hdr esc size fcs = ({ x with ctl := .idle }, some (.diag d .badHeader))

/-- R143, row 12, with the fold of R140: with room left the resolved byte is stored at offset `size`, and only there. That
DEC_STORE as an instruction of its own includes the fold of R140 and keeps `dec.esc` is the model's choice (log entry 9). -/
def Obligations.ResolvedByteIsStored : Prop :=
  ∀ (d : Nat) (r : Byte) (s : State) (x : Decoder) (esc : Bool) (size : Nat) (fcs : Word),
    s.decs[d]? = some x → x.ctl = .inFrame 2 esc size fcs → size < s.params.decCap →
    ∃ buf : Mem, (∀ a, memRead buf a = if a = size then some r else memRead x.buf a) ∧
      exec (.decStore d r) s =
        .next { s with decs := s.decs.set d { ctl := .inFrame 2 esc (size + 1) (fcsUpdate fcs r), buf := buf } } ∧
      resolvedByte s.params.decCap d x r 2 esc size fcs =
        ({ ctl := .inFrame 2 esc (size + 1) (fcsUpdate fcs r), buf := buf }, none)

/-- R144, row 13: with the buffer full the next resolved byte gives OVERSIZE and Idle; nothing is written. -/
def Obligations.FullBufferAbortsFrame : Prop :=
  ∀ (d : Nat) (r : Byte) (s : State) (x : Decoder) (esc : Bool) (size : Nat) (fcs : Word),
    s.decs[d]? = some x → x.ctl = .inFrame 2 esc size fcs → size = s.params.decCap →
    exec (.decOversize d r) s =
      .next { s with
        decs := s.decs.set d { x with ctl := .idle }
        outputs := s.outputs ++ [.event (.diag d .oversize)] } ∧
    resolvedByte s.params.decCap d x r 2 esc size fcs = ({ x with ctl := .idle }, some (.diag d .oversize))

/-- R69: DEC_BYTE does what the first matching row of the table does, and rows 7 and 9 go on as the row that the resolved
byte matches; each of those completes. That a size above C, which R69 does not name, takes row 13 is deduced (log entry 6),
and the rows as instructions of their own are the model's choice (log entry 9). -/
def Obligations.DecByteTakesItsMatchingRow : Prop :=
  (∀ (d : Nat) (b : Byte) (s : State) (x : Decoder), s.decs[d]? = some x →
    exec (.decByte d b) s = exec (classifyWire d b x.ctl) s ∧ ∃ t, exec (classifyWire d b x.ctl) s = .next t) ∧
  ∀ (d : Nat) (r : Byte) (s : State) (x : Decoder) (hdr : Fin 3) (esc : Bool) (size : Nat) (fcs : Word),
    s.decs[d]? = some x → x.ctl = .inFrame hdr esc size fcs →
    ∃ i, classifyResolved s.params.decCap d r x.ctl = some i ∧
      exec i s = .next (afterByte s d (resolvedByte s.params.decCap d x r hdr esc size fcs))

/-- R147 with R69 (which the spec marks [derived]): from an instance that meets the control state's invariant, DEC_BYTE hands
over no event or one, and each outcome comes under the condition of its own rows only, with the byte `r` it resolves to:
no event in rows 1, 2, 4, 8, 10 and 12; ESC_FLAG, BAD_HEADER and OVERSIZE with Idle after them (rows 3, 11, 13);
FRAME_READY and BAD_FCS with a fresh InFrame (rows 5, 6). The payload copy is that of log entry 15. -/
def Obligations.AtMostOneEventPerByte : Prop :=
  ∀ (d : Nat) (b : Byte) (s t : State) (x : Decoder), s.decs[d]? = some x → ctlInv s.params.decCap x.ctl →
    exec (.decByte d b) s = .next t →
    ∃ y, t.decs[d]? = some y ∧
      ((t.outputs = s.outputs ∧
          (x.ctl = .idle ∨ ∃ hdr esc size fcs, x.ctl = .inFrame hdr esc size fcs ∧
            ((b = 0x7E ∧ esc = false ∧ size < 4) ∨ (b = 0x7D ∧ esc = false) ∨
              ∃ r, resolvedOf esc b = some r ∧
                ((hdr = 0 ∧ r = 0xFF) ∨ (hdr = 1 ∧ r = 0x03) ∨ (hdr = 2 ∧ size < s.params.decCap))))) ∨
      (∃ hdr size fcs, x.ctl = .inFrame hdr true size fcs ∧ b = 0x7E ∧ y.ctl = .idle ∧
        t.outputs = s.outputs ++ [.event (.diag d .escFlag)]) ∨
      (∃ hdr size, x.ctl = .inFrame hdr false size 0xF0B8 ∧ 4 ≤ size ∧ b = 0x7E ∧ y.ctl = freshFrame ∧
        t.outputs = s.outputs ++ [.event (.frameReady d (size - 2) (bufPayload d x.buf (size - 2)))]) ∨
      (∃ hdr size fcs, x.ctl = .inFrame hdr false size fcs ∧ 4 ≤ size ∧ fcs ≠ 0xF0B8 ∧ b = 0x7E ∧ y.ctl = freshFrame ∧
        t.outputs = s.outputs ++ [.event (.diag d (.badFcs fcs size))]) ∨
      (∃ hdr esc size fcs r, x.ctl = .inFrame hdr esc size fcs ∧ resolvedOf esc b = some r ∧
        ((hdr = 0 ∧ r ≠ 0xFF) ∨ (hdr = 1 ∧ r ≠ 0x03)) ∧ y.ctl = .idle ∧
        t.outputs = s.outputs ++ [.event (.diag d .badHeader)]) ∨
      (∃ esc fcs r, x.ctl = .inFrame 2 esc s.params.decCap fcs ∧ resolvedOf esc b = some r ∧ y.ctl = .idle ∧
        t.outputs = s.outputs ++ [.event (.diag d .oversize)]))

/-- R145: DEC_PROCESS is DEC_BYTE over the chunk, in order, and completes for every chunk; an empty chunk does nothing. -/
def Obligations.DecProcessIsItsExpansion : Prop :=
  ∀ (d : Nat) (s : State), d < nDec s →
    exec (.decProcess d []) s = .next s ∧
    (∀ (c : Byte) (cs : List Byte), ∃ t, exec (.decByte d c) s = .next t ∧ nDec t = nDec s ∧
      exec (.decProcess d (c :: cs)) s = exec (.decProcess d cs) t) ∧
    ∀ chunk : List Byte, ∃ t, exec (.decProcess d chunk) s = .next t

/-- R146 (which the spec marks [derived]): two chunks one after the other do what their concatenation does: the same state,
buffers and event sequence. -/
def Obligations.ChunkBoundaryIndependence : Prop :=
  ∀ (d : Nat) (c1 c2 : List Byte) (s : State), d < nDec s →
    ∃ t u, exec (.decProcess d c1) s = .next t ∧ exec (.decProcess d c2) t = .next u ∧
      exec (.decProcess d (c1 ++ c2)) s = .next u

/-- R152 (which the spec marks [derived]): from a state that meets the invariant, every delivered length lies in 2 to C - 2,
and its payload copy has that length; so with C below 4 nothing is delivered. -/
def Obligations.DeliveredLengthBounds : Prop :=
  ∀ s t : State, s.Inv → step s = .next t →
    ∃ os, t.outputs = s.outputs ++ os ∧
      ∀ d len p, Output.event (.frameReady d len p) ∈ os →
        2 ≤ len ∧ len + 2 ≤ s.params.decCap ∧ p.length = len

/-- R148 with R85 (d) (which the spec marks [derived]): from a state that meets the invariant, whatever an instruction other
than DEC_PROCESS delivers is a payload that stands in its instance's buffer with the two received FCS bytes after it, and
header, payload and those two bytes fold to the good residue 0xF0B8: a corrupted frame is never delivered. Whatever
DEC_PROCESS delivers, the DEC_BYTE of one of its flags delivers, after the bytes before it, from a state that meets the
invariant. That the event holds a copy of the payload is deduced (log entry 15). -/
def Obligations.DeliveredFramesPassTheChecksum : Prop :=
  (∀ (i : Instr) (d len : Nat) (p : List Byte) (s t : State), s.Inv → (∀ e chunk, i ≠ .decProcess e chunk) →
    exec i s = .next t → t.outputs = s.outputs ++ [.event (.frameReady d len p)] →
    ∃ lo hi : Byte, p.length = len ∧ (∀ a, a < len → decBufRead s d a = p[a]?) ∧
      decBufRead s d len = some lo ∧ decBufRead s d (len + 1) = some hi ∧
      (0xFF :: 0x03 :: p ++ [lo, hi]).foldl fcsUpdate 0xFFFF = 0xF0B8) ∧
  ∀ (d : Nat) (chunk : List Byte) (s t : State), s.Inv → exec (.decProcess d chunk) s = .next t →
    ∃ os, t.outputs = s.outputs ++ os ∧
      ∀ e len p, Output.event (.frameReady e len p) ∈ os →
        ∃ pre post u v, chunk = pre ++ 0x7E :: post ∧ exec (.decProcess d pre) s = .next u ∧ u.Inv ∧
          exec (.decByte d 0x7E) u = .next v ∧ v.outputs = u.outputs ++ [.event (.frameReady e len p)]

/-- R148 (which the spec marks [derived]): at a FRAME_READY from a state that meets the invariant, the buffer holds the
stored bytes: the payload from offset 0 and the two received FCS bytes after it, for which header, payload and FCS bytes
fold to the good residue, and the payload copy (log entry 15) is exactly that payload. -/
def Obligations.DeliveredContentIsTheStoredBytes : Prop :=
  ∀ (d : Nat) (s t : State) (x : Decoder) (hdr : Fin 3) (size : Nat), s.Inv → s.decs[d]? = some x →
    x.ctl = .inFrame hdr false size 0xF0B8 → 4 ≤ size → exec (.decByte d 0x7E) s = .next t →
    ∃ (p : List Byte) (lo hi : Byte), p.length = size - 2 ∧
      t.outputs = s.outputs ++ [.event (.frameReady d (size - 2) p)] ∧
      (∀ a, a < size - 2 → decBufRead t d a = p[a]?) ∧
      decBufRead t d (size - 2) = some lo ∧ decBufRead t d (size - 1) = some hi ∧
      (0xFF :: 0x03 :: p ++ [lo, hi]).foldl fcsUpdate 0xFFFF = 0xF0B8

/-- R149 (which the spec marks [derived]), the round trip: an encoded frame fed to a decoder in Idle, or in InFrame with no
escape pending, first closes the earlier frame (the event of a flag byte there, if any), then gives exactly one OVERSIZE if
`n + 2 > C`, else nothing of its own if `n < 2`, else exactly one FRAME_READY with the payload, which then stands in the
buffer; and it leaves a fresh InFrame. -/
def Obligations.EncodedFrameRoundTrip : Prop :=
  ∀ (payload : List Byte) (d : Nat) (s : State) (x : Decoder), s.decs[d]? = some x →
    (x.ctl = .idle ∨ ∃ hdr size fcs, x.ctl = .inFrame hdr false size fcs) →
    ∃ t y, exec (.decProcess d (frameOf payload)) s = .next t ∧ t.decs[d]? = some y ∧
      y.ctl = .inFrame 0 false 0 0xFFFF ∧
      t.outputs = s.outputs ++ (decodeByte s.params.decCap d x 0x7E).2.toList.map Output.event ++
        (if payload.length + 2 > s.params.decCap then [.event (.diag d .oversize)]
         else if payload.length < 2 then []
         else [.event (.frameReady d payload.length payload)]) ∧
      (payload.length + 2 ≤ s.params.decCap → ∀ a, a < payload.length → memRead y.buf a = payload[a]?)

/-- R150 (which the spec marks [derived]), resynchronisation: garbage without a flag between two flags, then a valid frame
and its flag, from Idle, give at most one diagnostic and then exactly the valid frame's FRAME_READY, provided the garbage
leaves no escape pending and is not itself a valid frame; garbage without 0x7D leaves none pending. -/
def Obligations.ResynchronisationAfterGarbage : Prop :=
  (∀ (garbage payload : List Byte) (d : Nat) (s t1 : State) (x y : Decoder), s.decs[d]? = some x → x.ctl = .idle →
    0x7E ∉ garbage → 2 ≤ payload.length → payload.length + 2 ≤ s.params.decCap →
    exec (.decProcess d (0x7E :: garbage)) s = .next t1 → t1.decs[d]? = some y → escFlag? y.ctl ≠ some true →
    (∀ hdr size, 4 ≤ size → y.ctl ≠ .inFrame hdr false size 0xF0B8) →
    ∃ t diags, exec (.decProcess d (0x7E :: garbage ++ 0x7E :: stuffAll (frameBody payload) ++ [0x7E])) s = .next t ∧
      t.outputs = s.outputs ++ diags ++ [.event (.frameReady d payload.length payload)] ∧ diags.length ≤ 1 ∧
      ∀ o ∈ diags, ∃ c, o = .event (.diag d c) ∧ c ≠ .escFlag) ∧
  ∀ (garbage : List Byte) (d : Nat) (s t1 : State) (x y : Decoder), s.decs[d]? = some x → x.ctl = .idle →
    0x7E ∉ garbage → 0x7D ∉ garbage → exec (.decProcess d (0x7E :: garbage)) s = .next t1 → t1.decs[d]? = some y →
    escFlag? y.ctl ≠ some true

/-- R151 (which the spec marks [derived]), bad-header rejection: from Idle, a frame whose first resolved byte is not 0xFF, or
whose second is not 0x03, each in any form the wire allows, gives one BAD_HEADER and no delivery, whatever flagless bytes
follow, and its closing flag opens the next frame. Exception (a): a frame of only a correct prefix of the header gives no
event. Exception (b): a frame that ends in an escaped flag before its second header byte gives ESC_FLAG and Idle. -/
def Obligations.BadHeaderFrameIsRejected : Prop :=
  ∀ (d : Nat) (s : State) (x : Decoder), s.decs[d]? = some x → x.ctl = .idle →
    let rejected : State :=
      { s with
        decs := s.decs.set d { x with ctl := .inFrame 0 false 0 0xFFFF }
        outputs := s.outputs ++ [.event (.diag d .badHeader)] }
    let silent : State := { s with decs := s.decs.set d { x with ctl := .inFrame 0 false 0 0xFFFF } }
    let escaped : State := { s with outputs := s.outputs ++ [.event (.diag d .escFlag)] }
    (∀ (w : List Byte) (r : Byte) (rest : List Byte), wireForm w r → r ≠ 0xFF → 0x7E ∉ rest →
      exec (.decProcess d (0x7E :: w ++ rest ++ [0x7E])) s = .next rejected) ∧
    (∀ (w1 w2 : List Byte) (r : Byte) (rest : List Byte), wireForm w1 0xFF → wireForm w2 r → r ≠ 0x03 → 0x7E ∉ rest →
      exec (.decProcess d (0x7E :: w1 ++ w2 ++ rest ++ [0x7E])) s = .next rejected) ∧
    exec (.decProcess d [0x7E, 0x7E]) s = .next silent ∧
    exec (.decProcess d [0x7E, 0x7D, 0x7E]) s = .next escaped ∧
    ∀ w : List Byte, wireForm w 0xFF →
      exec (.decProcess d (0x7E :: w ++ [0x7E])) s = .next silent ∧
      exec (.decProcess d (0x7E :: w ++ [0x7D, 0x7E])) s = .next escaped

/-- R178: "it always recovers forward progress from the next flag byte onward": whatever state an instance is in, two flags
leave it in a fresh InFrame, and the bytes stored before them stay in the buffer. -/
def Obligations.TwoFlagsAlwaysResynchronise : Prop :=
  ∀ (d : Nat) (s : State) (x : Decoder), s.decs[d]? = some x →
    ∃ t, exec (.decProcess d [0x7E, 0x7E]) s = .next t ∧
      t.decs[d]? = some { x with ctl := .inFrame 0 false 0 0xFFFF }

/-- R154 (which the spec marks [derived]): the decoder never reads DEC_BUF. Two states that agree on an instance's control
state and on the parameters give, over any chunk, the same control state and the same events but for the payload copies. -/
def Obligations.DecoderNeverReadsItsBuffer : Prop :=
  ∀ (d : Nat) (chunk : List Byte) (s1 s2 : State) (x1 x2 : Decoder), s1.params = s2.params →
    s1.decs[d]? = some x1 → s2.decs[d]? = some x2 → x1.ctl = x2.ctl →
    ∃ (t1 t2 : State) (y1 y2 : Decoder) (es1 es2 : List Event), exec (.decProcess d chunk) s1 = .next t1 ∧ exec (.decProcess d chunk) s2 = .next t2 ∧
      t1.decs[d]? = some y1 ∧ t2.decs[d]? = some y2 ∧ y1.ctl = y2.ctl ∧
      t1.outputs = s1.outputs ++ es1.map Output.event ∧ t2.outputs = s2.outputs ++ es2.map Output.event ∧
      es1.map eventLabel = es2.map eventLabel

/-- R198 (which the spec marks [derived]): after a FRAME_READY, which leaves a fresh InFrame, no chunk of at most two bytes
changes the buffer: the first overwrite comes at the third resolved byte at the earliest. -/
def Obligations.DeliveredPayloadSurvivesTwoBytes : Prop :=
  ∀ (d : Nat) (chunk : List Byte) (s t : State) (x y : Decoder), s.decs[d]? = some x →
    x.ctl = .inFrame 0 false 0 0xFFFF → chunk.length ≤ 2 → exec (.decProcess d chunk) s = .next t →
    t.decs[d]? = some y → y.buf = x.buf

/-- R42, R143 (frame of memory): DEC_BYTE writes no byte of any DEC_BUF but offset `dec.size` of its own instance, and that
only if it is below C; a flag, a byte in Idle, an escape marker and every byte of the header (rows 10 and 11) write none; the
host's buffers are never written. -/
def Obligations.DecByteMemoryFrame : Prop :=
  ∀ (d : Nat) (b : Byte) (s t : State) (x : Decoder), s.decs[d]? = some x → exec (.decByte d b) s = .next t →
    (∀ d' a, (∀ hdr esc size fcs, x.ctl = .inFrame hdr esc size fcs → ¬(d' = d ∧ a = size ∧ size < s.params.decCap)) →
      decBufRead t d' a = decBufRead s d' a) ∧
    (b = 0x7E ∨ x.ctl = .idle ∨ (b = 0x7D ∧ escFlag? x.ctl = some false) ∨
        (∃ hdr esc size fcs, x.ctl = .inFrame hdr esc size fcs ∧ hdr < 2) →
      ∀ d' a, decBufRead t d' a = decBufRead s d' a) ∧
    ∀ out a, encOutRead t out a = encOutRead s out a

/-- R38: an operation that names an instance changes no other instance, no host buffer, no fault and no parameter, keeps the
number of instances, and hands over only events of that instance. -/
def Obligations.DecoderOperationsTouchOnlyTheirInstance : Prop :=
  ∀ (i : Instr) (d : Nat) (s t : State), decoderOf i = some d → exec i s = .next t →
    t.params = s.params ∧ t.encOut = s.encOut ∧ t.faults = s.faults ∧ t.pending = s.pending ∧ nDec t = nDec s ∧
    (∀ e, e ≠ d → t.decs[e]? = s.decs[e]?) ∧ (∀ e a, e ≠ d → decBufRead t e a = decBufRead s e a) ∧
    ∃ es : List Event, t.outputs = s.outputs ++ es.map Output.event ∧ ∀ ev ∈ es, eventDecoder ev = d

/-- R38, R56: an operation that names an instance reads nothing but that instance and the parameters: in two states that
agree on these, if it completes in one it completes in the other, leaves the same instance and hands over the same
outputs. -/
def Obligations.DecoderOperationsReadOnlyTheirInstance : Prop :=
  ∀ (i : Instr) (d : Nat) (s1 s2 t1 : State), decoderOf i = some d → s1.params = s2.params →
    s1.decs[d]? = s2.decs[d]? → exec i s1 = .next t1 →
    ∃ t2, exec i s2 = .next t2 ∧ t2.decs[d]? = t1.decs[d]? ∧
      ∃ os : List Output, t1.outputs = s1.outputs ++ os ∧ t2.outputs = s2.outputs ++ os

/-- R56, R200 (which the spec marks [derived]): operations on two different instances, or on an instance and the encoder, may
be issued in either order: the instances, the host's buffers and the faults end the same. -/
def Obligations.InterleavingOrderDoesNotMatter : Prop :=
  ∀ (i j : Instr) (d : Nat) (s t1 t2 u1 u2 : State), decoderOf i = some d → decoderOf j ≠ some d →
    exec i s = .next t1 → exec j t1 = .next u1 → exec j s = .next t2 → exec i t2 = .next u2 →
    u1.decs = u2.decs ∧ u1.encOut = u2.encOut ∧ u1.faults = u2.faults ∧ u1.params = u2.params

/-! ## RESET and the state after reset (70_reset_and_hazards.md) -/

/-- R190: RESET's encoding; it puts the instance in Idle and changes nothing else, emitting nothing even with a frame in
progress; a byte other than the flag then does nothing; and creating an instance at power-up leaves it in Idle, with each
byte of its buffer unspecified (R191). That each such byte is the free value drawn for it, once, is the model's choice (log
entry 2); this holds for every value of it. -/
def Obligations.ResetPutsInstanceInIdle : Prop :=
  (∀ d, d < 16 → decodeWord (packWord 0x6 (BitVec.ofNat 4 d) 0 0) = .ok (.reset d)) ∧
  (∀ (d : Nat) (s : State) (x : Decoder), s.decs[d]? = some x →
    exec (.reset d) s = .next { s with decs := s.decs.set d { x with ctl := .idle } }) ∧
  (∀ (d : Nat) (s t : State), exec (.reset d) s = .next t → exec (.decByte d 0x41) t = .next t) ∧
  ∀ (n d : Nat) (p : Params) (x : Decoder), (State.powerUp n p).decs[d]? = some x →
    x.ctl = .idle ∧ ∀ a, bufByte d x.buf a = Config.decBufDraw d a

/-- R37: after power-up with any parameters no fault is recorded, every one of the `n` instances is in Idle and holds in each
byte of its buffer the byte drawn for it, and no host buffer has been written. That `State.reset` has sixteen instances, a
capacity of 64 and no payload limit is the model's choice (log entry 1). -/
def Obligations.StateAfterReset : Prop :=
  (∀ (n : Nat) (p : Params),
    nDec (State.powerUp n p) = n ∧ (State.powerUp n p).params = p ∧ (State.powerUp n p).faults = [] ∧
    (∀ d, d < n → ∃ x, (State.powerUp n p).decs[d]? = some x ∧ x.ctl = .idle ∧
      ∀ a, memRead x.buf a = none ∧ bufByte d x.buf a = Config.decBufDraw d a) ∧
    ∀ out a, encOutRead (State.powerUp n p) out a = none) ∧
  State.reset = State.powerUp 16 { decCap := 64, encMaxN := none }

/-! ## Refusals and faults (60_exceptions.md) -/

/-- R68: a command word with a reserved OPSEL or a must-be-zero field that is not zero has no step, every operation that
names an instance `d >= N_DEC` is refused the same way, and each of the ten reserved instructions is refused, whatever the
other bits of its word. The names of the refusals (each reserved OPSEL by its own number, an instance as `noSuchDecoder`)
are the model's, deduced (log entry 14), and the decoder rows among the operations that name an instance are the model's
choice (log entry 9). -/
def Obligations.WordsThatSpellNothingAreRefused : Prop :=
  (∀ (w : CmdWord) (s : State) (cs : List Cmd),
    s.pending = .packed w :: cs →
    (w.extractLsb' 28 4 = 0 ∨ 7 ≤ (w.extractLsb' 28 4).toNat ∨
      (w.extractLsb' 28 4 = 1 ∧ w.extractLsb' 8 20 ≠ 0) ∨ (w.extractLsb' 28 4 = 2 ∧ w.extractLsb' 24 4 ≠ 0) ∨
      (w.extractLsb' 28 4 = 4 ∧ w.extractLsb' 8 16 ≠ 0) ∨ (w.extractLsb' 28 4 = 6 ∧ w.extractLsb' 0 24 ≠ 0)) →
    ∃ r, step s = .refused r) ∧
  (∀ (i : Instr) (d : Nat) (s : State), decoderOf i = some d → nDec s ≤ d → exec i s = .refused (.noSuchDecoder d)) ∧
  ∀ (rest : BitVec 28) (s : State),
    exec (.reservedOpsel0 rest) s = .refused (.reservedOpsel 0) ∧
    exec (.reservedOpsel7 rest) s = .refused (.reservedOpsel 7) ∧
    exec (.reservedOpsel8 rest) s = .refused (.reservedOpsel 8) ∧
    exec (.reservedOpsel9 rest) s = .refused (.reservedOpsel 9) ∧
    exec (.reservedOpselA rest) s = .refused (.reservedOpsel 10) ∧
    exec (.reservedOpselB rest) s = .refused (.reservedOpsel 11) ∧
    exec (.reservedOpselC rest) s = .refused (.reservedOpsel 12) ∧
    exec (.reservedOpselD rest) s = .refused (.reservedOpsel 13) ∧
    exec (.reservedOpselE rest) s = .refused (.reservedOpsel 14) ∧
    exec (.reservedOpselF rest) s = .refused (.reservedOpsel 15)

/-- The model's choice of log entry 9: a row of R69 named as an instruction is refused exactly where no wire byte and no
resolved byte is given that row in the instance's state (so in every other state it completes), and the stuffer's row for
other bytes is refused for 0x7D and 0x7E. -/
def Obligations.RowsAreRefusedOutsideTheirClass : Prop :=
  (∀ (i : Instr) (d : Nat) (s : State) (x : Decoder), decoderOf i = some d → s.decs[d]? = some x →
    (∀ b, i ≠ .decByte d b) → (∀ chunk, i ≠ .decProcess d chunk) → i ≠ .reset d →
    ((exec i s = .refused .rowNotMatched ↔
        (∀ b, classifyWire d b x.ctl ≠ i) ∧ ∀ r, classifyResolved s.params.decCap d r x.ctl ≠ some i) ∧
      (exec i s ≠ .refused .rowNotMatched → ∃ t, exec i s = .next t))) ∧
  ∀ (b : Byte) (s : State), b = 0x7D ∨ b = 0x7E → exec (.stuffPass b) s = .refused .rowNotMatched

/-- R67: every packed word with OPSEL 1, 2, 4 or 6 whose must-be-zero fields are zero, and whose instance exists, runs: it is
the operation of the table with its operands taken from the word as they are. -/
def Obligations.WordsThatSpellAnOperationRun : Prop :=
  ∀ (w : CmdWord) (s : State) (cs : List Cmd), s.pending = .packed w :: cs →
    (w.extractLsb' 28 4 = 1 → w.extractLsb' 8 20 = 0 →
      step s = exec (.tblRead (w.extractLsb' 0 8)) { s with pending := cs }) ∧
    (w.extractLsb' 28 4 = 2 → w.extractLsb' 24 4 = 0 →
      step s = exec (.fcsUpdate (w.extractLsb' 8 16) (w.extractLsb' 0 8)) { s with pending := cs }) ∧
    (w.extractLsb' 28 4 = 4 → w.extractLsb' 8 16 = 0 →
      step s = exec (.decByte (w.extractLsb' 24 4).toNat (w.extractLsb' 0 8)) { s with pending := cs }) ∧
    (w.extractLsb' 28 4 = 6 → w.extractLsb' 0 24 = 0 →
      step s = exec (.reset (w.extractLsb' 24 4).toNat) { s with pending := cs })

/-- R174, R111: ENC_OVERFLOW carries `n` and `S` and is recorded, nothing is written or returned, and no step of the machine ever
removes a recorded fault; a run with one recorded is not a good run. That the machine goes on after the fault, in a next
state, is deduced (log entry 4). -/
def Obligations.OverflowStaysRecorded : Prop :=
  (∀ (payload : List Byte) (size out : Nat) (s : State),
    (∀ m, s.params.encMaxN = some m → payload.length ≤ m) → size < 2 * payload.length + 8 →
    exec (.encProcess payload size out) s =
      .next { s with faults := s.faults ++ [.encOverflow payload.length size] }) ∧
  (∀ s t : State, step s = .next t → ∃ fs, t.faults = s.faults ++ fs) ∧
  ∀ s t : State, step s = .next t → goodRun s = false → goodRun t = false

/-- R170, R171, R174: the four diagnostics carry the codes 1 to 4 and no other; only ENC_PROCESS with a buffer below `2n + 8`
records a fault; no diagnostic and no malformed input does, and no step of the machine stops with a fault (for ENC_OVERFLOW
that is deduced, log entry 4). -/
def Obligations.DiagnosticsAreNotFaults : Prop :=
  (∀ (i : Instr) (s t : State), exec i s = .next t → t.faults ≠ s.faults →
    ∃ payload size out, i = .encProcess payload size out ∧ size < 2 * payload.length + 8) ∧
  (∀ c : Diag, (diagCode c = 1 ↔ c = .escFlag) ∧ (diagCode c = 2 ↔ ∃ fcs size, c = .badFcs fcs size) ∧
    (diagCode c = 3 ↔ c = .badHeader) ∧ (diagCode c = 4 ↔ c = .oversize) ∧ 1 ≤ diagCode c ∧ diagCode c ≤ 4) ∧
  (∀ (i : Instr) (s : State) (f : Fault), exec i s ≠ .fault f) ∧
  ∀ (s : State) (f : Fault), step s ≠ .fault f

/-! ## Encoding and the step -/

/-- R67: the packed form and the decoder agree both ways: a word decodes to an instruction exactly if that instruction
encodes to it, so no bit of a word is dropped and no two words spell one instruction. -/
def Obligations.PackedEncodingAndDecodingAgree : Prop :=
  ∀ (i : Instr) (w : CmdWord), encodeWord i = some w ↔ decodeWord w = .ok i

/-- R67, R69, R70: every instruction that runs in a state is what the command that encodes it decodes to in that state (the
commands of the rows are the model's choice, log entry 9). -/
def Obligations.CommandsDecodeToTheInstructionTheyEncode : Prop :=
  ∀ (i : Instr) (s t : State), i.wellFormed = true → exec i s = .next t → decode s (encode i) = .ok i

/-- R67 to R70: whatever the decoder answers is well-formed. -/
def Obligations.DecodedInstructionsAreWellFormed : Prop :=
  ∀ (s : State) (c : Cmd) (i : Instr), decode s c = .ok i → i.wellFormed = true

/-- 95_test_vectors.md: words written out from the encodings of R67 and R70 decode to the operations they stand for. That an
8-bit table word is read as a byte at the stuffer, although the WIRE8 rows share those words, is the model's choice (log
entry 9). -/
def Obligations.WordsOfTheVectorsDecode : Prop :=
  decodeTableWord 32 0x1000007D = some (.tblRead 0x7D) ∧
  decodeTableWord 32 0x203DE341 = some (.fcsUpdate 0x3DE3 0x41) ∧
  decodeTableWord 32 0x4300007E = some (.decByte 3 0x7E) ∧
  decodeTableWord 32 0x65000000 = some (.reset 5) ∧
  decodeTableWord 32 0xA0000001 = some (.reservedOpselA 1) ∧
  decodeTableWord 32 0x11000000 = none ∧ decodeTableWord 32 0x60000001 = none ∧
  decodeTableWord 8 0x7D = some .stuffEsc ∧ decodeTableWord 8 0x7E = some .stuffFlag ∧
  decodeTableWord 8 0x41 = some (.stuffPass 0x41)

/-- R5, R32: one step issues the host's next operation and runs the instruction it spells, and nothing else; a command that
spells nothing is refused; with nothing issued the block holds its state (R184). The queue of issued operations is the
model's own field (log entry 3). -/
def Obligations.StepRunsTheDecodedInstruction : Prop :=
  (∀ (s : State) (c : Cmd) (cs : List Cmd) (i : Instr), s.pending = c :: cs → decode s c = .ok i →
    step s = exec i { s with pending := cs }) ∧
  (∀ (s : State) (c : Cmd) (cs : List Cmd) (r : Refusal), s.pending = c :: cs → decode s c = .error r →
    step s = .refused r) ∧
  (∀ s : State, s.pending = [] → step s = .next s) ∧
  ∀ (s : State) (w : Nat) (i : Instr), decodeTableWord 32 w = some i → step (s.withFetchWord 32 w) = exec i s

/-! ## Invariants and whole-machine rules -/

/-- R33, R42 with R85 (which the spec marks [derived]): every step keeps the invariant: `hdr < 2` only with `size = 0`,
`size <= C`, every memory in canonical form, no DEC_BUF written at or above C, and the running checksum is the fold over the
header bytes matched and the stored bytes. -/
def Obligations.StepKeepsTheInvariant : Prop :=
  ∀ s t : State, s.Inv → step s = .next t → t.Inv

/-- R33 (RESET establishes the invariant): power-up with any parameters meets it, so the state after reset does. -/
def Obligations.PowerUpMeetsTheInvariant : Prop :=
  (∀ (n : Nat) (p : Params), (State.powerUp n p).Inv) ∧ State.reset.Inv

/-- R35, R6: no step changes a parameter or the number of instances; what was handed to the host stays handed over, and the
queue gives up the operation it issued (both are the model's own fields, log entry 3). -/
def Obligations.ParametersAndRecordNeverChange : Prop :=
  ∀ s t : State, step s = .next t →
    t.params = s.params ∧ nDec t = nDec s ∧ (∃ os, t.outputs = s.outputs ++ os) ∧
    (t.pending = s.pending.tail)

/-- R41, R28, R200: only ENC_PROCESS writes a host buffer, and only an operation that names an instance changes a decoder. -/
def Obligations.UnitsShareNoWritableState : Prop :=
  ∀ (i : Instr) (s t : State), exec i s = .next t →
    ((∀ payload size out, i ≠ .encProcess payload size out) → t.encOut = s.encOut) ∧
    (decoderOf i = none → t.decs = s.decs)
end

