-- ==== Sys2Proof/Laws/Decode.lean ====
section
/-! SUPPORT. The laws of the packed word's fields (30_encoding.md R67): a field of a packed word is what was packed, and a word is
what its fields pack to. -/

namespace Sys2Proof.Machine

@[simp] theorem opselField_packWord (o n : BitVec 4) (f : Word) (b : Byte) : opselField (packWord o n f b) = o := by
  apply BitVec.eq_of_getLsbD_eq
  intro j hj
  simp only [opselField, packWord, BitVec.getLsbD_extractLsb', BitVec.getLsbD_append]
  interval_cases j <;> simp

@[simp] theorem instField_packWord (o n : BitVec 4) (f : Word) (b : Byte) : instField (packWord o n f b) = n := by
  apply BitVec.eq_of_getLsbD_eq
  intro j hj
  simp only [instField, packWord, BitVec.getLsbD_extractLsb', BitVec.getLsbD_append]
  interval_cases j <;> simp

@[simp] theorem f16Field_packWord (o n : BitVec 4) (f : Word) (b : Byte) : f16Field (packWord o n f b) = f := by
  apply BitVec.eq_of_getLsbD_eq
  intro j hj
  simp only [f16Field, packWord, BitVec.getLsbD_extractLsb', BitVec.getLsbD_append]
  interval_cases j <;> simp

@[simp] theorem b8Field_packWord (o n : BitVec 4) (f : Word) (b : Byte) : b8Field (packWord o n f b) = b := by
  apply BitVec.eq_of_getLsbD_eq
  intro j hj
  simp only [b8Field, packWord, BitVec.getLsbD_extractLsb', BitVec.getLsbD_append]
  interval_cases j <;> simp

theorem packWord_fields (w : CmdWord) : packWord (opselField w) (instField w) (f16Field w) (b8Field w) = w := by
  apply BitVec.eq_of_getLsbD_eq
  intro j hj
  simp only [opselField, instField, f16Field, b8Field, packWord, BitVec.getLsbD_append, BitVec.getLsbD_extractLsb']
  interval_cases j <;> simp

@[simp] theorem opselField_rest (o : BitVec 4) (rest : BitVec 28) : opselField (o ++ rest) = o := by
  apply BitVec.eq_of_getLsbD_eq
  intro j hj
  simp only [opselField, BitVec.getLsbD_extractLsb', BitVec.getLsbD_append]
  interval_cases j <;> simp

@[simp] theorem restField_rest (o : BitVec 4) (rest : BitVec 28) : restField (o ++ rest) = rest := by
  apply BitVec.eq_of_getLsbD_eq
  intro j hj
  simp only [restField, BitVec.getLsbD_extractLsb', BitVec.getLsbD_append]
  interval_cases j <;> simp

theorem opsel_rest_fields (w : CmdWord) : opselField w ++ restField w = w := by
  apply BitVec.eq_of_getLsbD_eq
  intro j hj
  simp only [opselField, restField, BitVec.getLsbD_append, BitVec.getLsbD_extractLsb']
  interval_cases j <;> simp

end Sys2Proof.Machine
end

