-- ==== Sys2Proof/Laws/Fcs16.lean ====
section
/-! SUPPORT. The laws of the FCS16 unit's shared operations: the fold over a sequence, and that a shift is linear over XOR. -/

namespace Sys2Proof.Machine

@[simp] theorem fcsFoldBytes_nil (f : Word) : fcsFoldBytes f [] = f := rfl

@[simp] theorem fcsFoldBytes_cons (f : Word) (b : Byte) (bs : List Byte) :
    fcsFoldBytes f (b :: bs) = fcsFoldBytes (fcsUpdate f b) bs := rfl

theorem fcsFoldBytes_append (f : Word) (xs ys : List Byte) :
    fcsFoldBytes f (xs ++ ys) = fcsFoldBytes (fcsFoldBytes f xs) ys := List.foldl_append

/-- One pass of the generator is linear over XOR. -/
theorem fcsShift_xor (x y : Word) : fcsShift (x ^^^ y) = fcsShift x ^^^ fcsShift y := by
  unfold fcsShift
  rw [BitVec.getLsbD_xor, BitVec.ushiftRight_xor_distrib]
  cases x.getLsbD 0 <;> cases y.getLsbD 0 <;> simp [BitVec.xor_assoc]
  · rw [BitVec.xor_comm (y >>> 1)]

/-- Any number of passes is linear over XOR. -/
theorem fcsShifts_xor (n : Nat) (x y : Word) : fcsShifts n (x ^^^ y) = fcsShifts n x ^^^ fcsShifts n y := by
  induction n generalizing x y with
  | zero => rfl
  | succ n ih => simp only [fcsShifts, fcsShift_xor, ih]

end Sys2Proof.Machine
end

