-- ==== Sys2Proof/Laws/State.lean ====
section
/-! SUPPORT. One lemma per field and update of State, so that no proof unfolds a record update. -/

namespace Sys2Proof.Machine

@[simp] theorem emit_params (s : State) (o : Output) : (emit s o).params = s.params := rfl
@[simp] theorem emit_decs (s : State) (o : Output) : (emit s o).decs = s.decs := rfl
@[simp] theorem emit_encOut (s : State) (o : Output) : (emit s o).encOut = s.encOut := rfl
@[simp] theorem emit_faults (s : State) (o : Output) : (emit s o).faults = s.faults := rfl
@[simp] theorem emit_outputs (s : State) (o : Output) : (emit s o).outputs = s.outputs ++ [o] := rfl
@[simp] theorem emit_pending (s : State) (o : Output) : (emit s o).pending = s.pending := rfl

@[simp] theorem emitEvents_params (s : State) (es : List Event) : (emitEvents s es).params = s.params := rfl
@[simp] theorem emitEvents_decs (s : State) (es : List Event) : (emitEvents s es).decs = s.decs := rfl
@[simp] theorem emitEvents_encOut (s : State) (es : List Event) : (emitEvents s es).encOut = s.encOut := rfl
@[simp] theorem emitEvents_faults (s : State) (es : List Event) : (emitEvents s es).faults = s.faults := rfl
@[simp] theorem emitEvents_outputs (s : State) (es : List Event) : (emitEvents s es).outputs = s.outputs ++ es.map Output.event := rfl
@[simp] theorem emitEvents_pending (s : State) (es : List Event) : (emitEvents s es).pending = s.pending := rfl

@[simp] theorem recordFault_params (s : State) (f : Fault) : (recordFault s f).params = s.params := rfl
@[simp] theorem recordFault_decs (s : State) (f : Fault) : (recordFault s f).decs = s.decs := rfl
@[simp] theorem recordFault_encOut (s : State) (f : Fault) : (recordFault s f).encOut = s.encOut := rfl
@[simp] theorem recordFault_faults (s : State) (f : Fault) : (recordFault s f).faults = s.faults ++ [f] := rfl
@[simp] theorem recordFault_outputs (s : State) (f : Fault) : (recordFault s f).outputs = s.outputs := rfl
@[simp] theorem recordFault_pending (s : State) (f : Fault) : (recordFault s f).pending = s.pending := rfl

@[simp] theorem putDecoder_params (s : State) (d : Nat) (x : Decoder) : (putDecoder s d x).params = s.params := rfl
@[simp] theorem putDecoder_decs (s : State) (d : Nat) (x : Decoder) : (putDecoder s d x).decs = s.decs.set d x := rfl
@[simp] theorem putDecoder_encOut (s : State) (d : Nat) (x : Decoder) : (putDecoder s d x).encOut = s.encOut := rfl
@[simp] theorem putDecoder_faults (s : State) (d : Nat) (x : Decoder) : (putDecoder s d x).faults = s.faults := rfl
@[simp] theorem putDecoder_outputs (s : State) (d : Nat) (x : Decoder) : (putDecoder s d x).outputs = s.outputs := rfl
@[simp] theorem putDecoder_pending (s : State) (d : Nat) (x : Decoder) : (putDecoder s d x).pending = s.pending := rfl

@[simp] theorem putEncOut_params (s : State) (out : Nat) (m : Mem) : (putEncOut s out m).params = s.params := rfl
@[simp] theorem putEncOut_decs (s : State) (out : Nat) (m : Mem) : (putEncOut s out m).decs = s.decs := rfl
@[simp] theorem putEncOut_encOut (s : State) (out : Nat) (m : Mem) : (putEncOut s out m).encOut = assocPut s.encOut out m := rfl
@[simp] theorem putEncOut_faults (s : State) (out : Nat) (m : Mem) : (putEncOut s out m).faults = s.faults := rfl
@[simp] theorem putEncOut_outputs (s : State) (out : Nat) (m : Mem) : (putEncOut s out m).outputs = s.outputs := rfl
@[simp] theorem putEncOut_pending (s : State) (out : Nat) (m : Mem) : (putEncOut s out m).pending = s.pending := rfl

@[simp] theorem afterByte_params (s : State) (d : Nat) (r : Decoder × Option Event) : (afterByte s d r).params = s.params := rfl
@[simp] theorem afterByte_decs (s : State) (d : Nat) (r : Decoder × Option Event) : (afterByte s d r).decs = s.decs.set d r.1 := rfl
@[simp] theorem afterByte_encOut (s : State) (d : Nat) (r : Decoder × Option Event) : (afterByte s d r).encOut = s.encOut := rfl
@[simp] theorem afterByte_faults (s : State) (d : Nat) (r : Decoder × Option Event) : (afterByte s d r).faults = s.faults := rfl
@[simp] theorem afterByte_outputs (s : State) (d : Nat) (r : Decoder × Option Event) : (afterByte s d r).outputs = s.outputs ++ r.2.toList.map Output.event := rfl
@[simp] theorem afterByte_pending (s : State) (d : Nat) (r : Decoder × Option Event) : (afterByte s d r).pending = s.pending := rfl

@[simp] theorem issueFirst_params (s : State) (c : Cmd) : (issueFirst s c).params = s.params := rfl
@[simp] theorem issueFirst_decs (s : State) (c : Cmd) : (issueFirst s c).decs = s.decs := rfl
@[simp] theorem issueFirst_encOut (s : State) (c : Cmd) : (issueFirst s c).encOut = s.encOut := rfl
@[simp] theorem issueFirst_faults (s : State) (c : Cmd) : (issueFirst s c).faults = s.faults := rfl
@[simp] theorem issueFirst_outputs (s : State) (c : Cmd) : (issueFirst s c).outputs = s.outputs := rfl
@[simp] theorem issueFirst_pending (s : State) (c : Cmd) : (issueFirst s c).pending = c :: s.pending := rfl

end Sys2Proof.Machine
end

