-- ==== Sys2Proof/Laws/Ops.lean ====
section
/-! SUPPORT. The laws of the shared operations: read after write, the canonical form, the instance operand. -/

namespace Sys2Proof.Machine

/-! ## Keyed lists -/

@[simp] theorem assocFind_nil {α : Type} (k : Nat) : assocFind ([] : List (Nat × α)) k = none := rfl

theorem assocFind_put_same {α : Type} (m : List (Nat × α)) (k : Nat) (v : α) :
    assocFind (assocPut m k v) k = some v := by
  induction m with
  | nil => simp [assocPut, assocFind]
  | cons p m ih =>
    obtain ⟨a, w⟩ := p
    simp only [assocPut]
    split
    · simp [assocFind]
    · split
      · simp [assocFind]
      · rename_i h
        simp [assocFind, ih, Ne.symm h]

theorem assocFind_put_other {α : Type} (m : List (Nat × α)) (k k' : Nat) (v : α) (h : k' ≠ k) :
    assocFind (assocPut m k v) k' = assocFind m k' := by
  induction m with
  | nil => simp [assocPut, assocFind, Ne.symm h]
  | cons p m ih =>
    obtain ⟨a, w⟩ := p
    simp only [assocPut]
    split
    · simp [assocFind, Ne.symm h]
    · split
      · rename_i hk
        subst hk
        simp [assocFind, Ne.symm h]
      · simp [assocFind, ih]

theorem assocSorted_tail {α : Type} {p : Nat × α} {m : List (Nat × α)} (h : assocSorted (p :: m) = true) :
    assocSorted m = true := by
  cases m with
  | nil => rfl
  | cons q m => simp [assocSorted] at h; exact h.2

/-- Putting a key keeps the canonical form. -/
theorem assocPut_sorted {α : Type} (m : List (Nat × α)) (k : Nat) (v : α) (h : assocSorted m = true) :
    assocSorted (assocPut m k v) = true := by
  induction m with
  | nil => rfl
  | cons p m ih =>
    obtain ⟨a, w⟩ := p
    simp only [assocPut]
    split
    · simp [assocSorted, *]
    · split
      · rename_i hk
        subst hk
        cases m <;> simp_all [assocSorted]
      · have := ih (assocSorted_tail h)
        cases m with
        | nil => simp [assocPut, assocSorted]; omega
        | cons q m =>
          obtain ⟨b, u⟩ := q
          simp only [assocPut] at this ⊢
          simp only [assocSorted, Bool.and_eq_true, decide_eq_true_eq] at h
          split
          · simp_all [assocSorted]; omega
          · split <;> simp_all [assocSorted]

theorem mem_assocPut {α : Type} {m : List (Nat × α)} {k : Nat} {v : α} {p : Nat × α} (h : p ∈ assocPut m k v) :
    p = (k, v) ∨ p ∈ m := by
  induction m with
  | nil => simpa [assocPut] using h
  | cons q m ih =>
    obtain ⟨a, w⟩ := q
    simp only [assocPut] at h
    split at h
    · simpa using h
    · split at h
      · simp at h ⊢; tauto
      · simp at h ⊢
        rcases h with h | h
        · exact .inr (.inl h)
        · rcases ih h with h | h <;> tauto

theorem mem_of_assocFind {α : Type} {m : List (Nat × α)} {k : Nat} {v : α} (h : assocFind m k = some v) :
    (k, v) ∈ m := by
  induction m with
  | nil => simp at h
  | cons q m ih =>
    obtain ⟨a, w⟩ := q
    simp only [assocFind] at h
    split at h
    · simp_all
    · exact List.mem_cons_of_mem _ (ih h)

/-! ## Memory -/

@[simp] theorem memRead_nil (a : Nat) : memRead [] a = none := rfl

@[simp] theorem memRead_memWrite_same (m : Mem) (a : Nat) (v : Byte) : memRead (memWrite m a v) a = some v :=
  assocFind_put_same m a v

theorem memRead_memWrite_other (m : Mem) (a b : Nat) (v : Byte) (h : b ≠ a) :
    memRead (memWrite m a v) b = memRead m b :=
  assocFind_put_other m a b v h

theorem memRead_memWrite (m : Mem) (a b : Nat) (v : Byte) :
    memRead (memWrite m a v) b = if b = a then some v else memRead m b := by
  split
  · rename_i h; subst h; simp
  · rename_i h; exact memRead_memWrite_other m a b v h

/-- Every write keeps the canonical form of a memory. -/
theorem memWrite_wf (m : Mem) (a : Nat) (v : Byte) (h : memWf m = true) : memWf (memWrite m a v) = true :=
  assocPut_sorted m a v h

/-! ## The host's buffers -/

@[simp] theorem encBuf_putEncOut_same (s : State) (out : Nat) (m : Mem) : encBuf (putEncOut s out m) out = m := by
  simp [encBuf, assocFind_put_same]

theorem encBuf_putEncOut_other (s : State) (out o : Nat) (m : Mem) (h : o ≠ out) :
    encBuf (putEncOut s out m) o = encBuf s o := by
  simp [encBuf, assocFind_put_other _ _ _ _ h]

theorem encBuf_wf (s : State) (out : Nat) (h : ∀ p ∈ s.encOut, memWf p.2 = true) : memWf (encBuf s out) = true := by
  unfold encBuf
  cases hf : assocFind s.encOut out with
  | none => rfl
  | some m => exact h _ (mem_of_assocFind hf)

/-! ## The instance operand -/

/-- `withDecoder` answers a next state only through the instance's own continuation. -/
theorem withDecoder_next {d : Nat} {s t : State} {k : Decoder → Host.Outcome State Fault Refusal}
    (h : withDecoder d s k = .next t) : ∃ x, s.decs[d]? = some x ∧ k x = .next t := by
  unfold withDecoder at h
  cases hx : s.decs[d]? with
  | none => rw [hx] at h; cases h
  | some x => rw [hx] at h; exact ⟨x, rfl, h⟩

theorem withDecoder_some {d : Nat} {s : State} {x : Decoder} (k : Decoder → Host.Outcome State Fault Refusal)
    (h : s.decs[d]? = some x) : withDecoder d s k = k x := by
  simp [withDecoder, h]

theorem withDecoder_none {d : Nat} {s : State} (k : Decoder → Host.Outcome State Fault Refusal)
    (h : nDec s ≤ d) : withDecoder d s k = .refused (.noSuchDecoder d) := by
  simp [withDecoder, List.getElem?_eq_none h]

/-- A row answers a next state only where its condition holds, and that state is what the row gives. -/
theorem onRow_next {d : Nat} {s t : State} {row : Decoder → Option (Decoder × Option Event)}
    (h : onRow d s row = .next t) : ∃ x r, s.decs[d]? = some x ∧ row x = some r ∧ t = afterByte s d r := by
  obtain ⟨x, hx, h⟩ := withDecoder_next h
  cases hr : row x with
  | none => simp [hr] at h
  | some r => simp [hr] at h; exact ⟨x, r, hx, hr, h.symm⟩

theorem onRow_some {d : Nat} {s : State} {x : Decoder} {row : Decoder → Option (Decoder × Option Event)}
    {r : Decoder × Option Event} (h : s.decs[d]? = some x) (hr : row x = some r) :
    onRow d s row = .next (afterByte s d r) := by
  simp [onRow, withDecoder, h, hr]

/-! ## Putting an instance -/

theorem decBufRead_some {s : State} {d : Nat} {x : Decoder} (h : s.decs[d]? = some x) (a : Nat) :
    decBufRead s d a = memRead x.buf a := by
  simp [decBufRead, h]

theorem putDecoder_get_same {s : State} {d : Nat} {x : Decoder} (y : Decoder) (h : s.decs[d]? = some x) :
    (putDecoder s d y).decs[d]? = some y := by
  have hd : d < s.decs.length := by
    by_contra hn
    simp [List.getElem?_eq_none (Nat.le_of_not_lt hn)] at h
  simp [hd]

theorem putDecoder_get_other (s : State) {d e : Nat} (y : Decoder) (h : e ≠ d) :
    (putDecoder s d y).decs[e]? = s.decs[e]? := by
  simp [Ne.symm h]

theorem set_getElem?_self {α : Type} {l : List α} {d : Nat} {x : α} (h : l[d]? = some x) : l.set d x = l := by
  apply List.ext_getElem?
  intro i
  rw [List.getElem?_set]
  split
  · rename_i hi
    subst hi
    split
    · exact h.symm
    · rename_i hlt
      simp [List.getElem?_eq_none (Nat.le_of_not_lt hlt)]
  · rfl

end Sys2Proof.Machine
end

