-- ==== Sys2Proof/Laws/Encoder.lean ====
section
/-! SUPPORT. The laws of the encoder's shared operations: what a run of `put` writes, and what `cs_stuff` over a sequence does. -/

namespace Sys2Proof.Machine

@[simp] theorem stuffAll_nil : stuffAll [] = [] := rfl

@[simp] theorem stuffAll_cons (b : Byte) (bs : List Byte) : stuffAll (b :: bs) = stuff b ++ stuffAll bs := rfl

theorem stuffAll_append (xs ys : List Byte) : stuffAll (xs ++ ys) = stuffAll xs ++ stuffAll ys :=
  List.flatMap_append

@[simp] theorem encPutAll_nil (e : EncWork) : encPutAll e [] = e := rfl

@[simp] theorem encPutAll_cons (e : EncWork) (y : Byte) (ys : List Byte) :
    encPutAll e (y :: ys) = encPutAll (encPut e y) ys := rfl

theorem encPutAll_append (e : EncWork) (xs ys : List Byte) :
    encPutAll e (xs ++ ys) = encPutAll (encPutAll e xs) ys := List.foldl_append

theorem encPutAll_pos (e : EncWork) (ys : List Byte) : (encPutAll e ys).pos = e.pos + ys.length := by
  induction ys generalizing e with
  | nil => rfl
  | cons y ys ih => simp [ih, encPut]; omega

theorem encPutAll_fcs (e : EncWork) (ys : List Byte) : (encPutAll e ys).fcs = e.fcs := by
  induction ys generalizing e with
  | nil => rfl
  | cons y ys ih => simp [ih, encPut]

/-- `put` sees no checksum: the bytes and the position are the same whatever `enc.fcs` is. -/
theorem encPutAll_withFcs (e : EncWork) (f : Word) (ys : List Byte) :
    encPutAll { e with fcs := f } ys = { encPutAll e ys with fcs := f } := by
  induction ys generalizing e with
  | nil => rfl
  | cons y ys ih => exact ih (encPut e y)

/-- What a run of `put` leaves at every offset: the bytes put, from `enc.pos` on, and everything else as it was. -/
theorem encPutAll_read (e : EncWork) (ys : List Byte) (a : Nat) :
    memRead (encPutAll e ys).out a =
      if e.pos ≤ a ∧ a < e.pos + ys.length then ys[a - e.pos]? else memRead e.out a := by
  induction ys generalizing e with
  | nil => simp
  | cons y ys ih =>
    rw [encPutAll_cons, ih]
    simp only [encPut, memRead_memWrite, List.length_cons]
    by_cases h : a = e.pos
    · subst h; simp
    · by_cases h' : e.pos + 1 ≤ a ∧ a < e.pos + 1 + ys.length
      · have : a - e.pos = (a - (e.pos + 1)) + 1 := by omega
        rw [if_pos h', if_pos (by omega), this, List.getElem?_cons_succ]
      · rw [if_neg h', if_neg h, if_neg (by omega)]

/-- A run of `put` keeps the buffer's canonical form. -/
theorem encPutAll_wf (e : EncWork) (ys : List Byte) (h : memWf e.out = true) : memWf (encPutAll e ys).out = true := by
  induction ys generalizing e with
  | nil => exact h
  | cons y ys ih => exact ih _ (memWrite_wf _ _ _ h)

/-- `cs_stuff` over a sequence: the stuffed bytes are put, and the unescaped bytes are folded. -/
theorem foldl_encCsStuff (e : EncWork) (xs : List Byte) :
    xs.foldl encCsStuff e = { encPutAll e (stuffAll xs) with fcs := fcsFoldBytes e.fcs xs } := by
  induction xs generalizing e with
  | nil => rfl
  | cons x xs ih =>
    rw [List.foldl_cons, ih, stuffAll_cons, encPutAll_append]
    simp only [encCsStuff, encPutAll_withFcs, fcsFoldBytes_cons]

/-- ENC_PROCESS puts exactly `frame(P)`, whatever the buffer held. -/
theorem encTail_encBody (payload : List Byte) (m : Mem) :
    ∃ f, encTail (encBody payload m) =
      { encPutAll { pos := 0, fcs := Config.fcsInit, out := m } (frameOf payload) with fcs := f } := by
  refine ⟨(encTail (encBody payload m)).fcs, ?_⟩
  have h : encBody payload m =
      { encPutAll { pos := 0, fcs := Config.fcsInit, out := m }
          (Config.flag :: stuffAll (Config.addr :: Config.ctrl :: payload)) with
        fcs := fcsFoldBytes Config.fcsInit (Config.addr :: Config.ctrl :: payload) } :=
    foldl_encCsStuff (encPut { pos := 0, fcs := Config.fcsInit, out := m } Config.flag)
      (Config.addr :: Config.ctrl :: payload)
  have hf : frameOf payload = (Config.flag :: stuffAll (Config.addr :: Config.ctrl :: payload)) ++
      (stuff (loByte (frameFcs payload)) ++ (stuff (hiByte (frameFcs payload)) ++ [Config.flag])) := by
    simp [frameOf, frameBody, stuffAll_append]
  rw [h, hf, encPutAll_append, encPutAll_append, encPutAll_append]
  simp only [encTail, encPutAll_withFcs, frameFcs]
  rfl

/-- Everything ENC_PROCESS can do (41_encoder.md R102): refuse a payload that is too long, record the overflow, or write
`frame(P)` and return its length. -/
theorem execEncProcess_cases (payload : List Byte) (size out : Nat) (s : State) :
    (payloadTooLong s.params.encMaxN payload.length = true ∧
      execEncProcess payload size out s = .refused (.payloadTooLong payload.length)) ∨
    (payloadTooLong s.params.encMaxN payload.length = false ∧ size < 2 * payload.length + 8 ∧
      execEncProcess payload size out s = .next (recordFault s (.encOverflow payload.length size))) ∨
    (payloadTooLong s.params.encMaxN payload.length = false ∧ 2 * payload.length + 8 ≤ size ∧
      execEncProcess payload size out s =
        .next (emit (putEncOut s out
          (encPutAll { pos := 0, fcs := Config.fcsInit, out := encBuf s out } (frameOf payload)).out)
          (.length (frameOf payload).length))) := by
  obtain ⟨f, hf⟩ := encTail_encBody payload (encBuf s out)
  unfold execEncProcess
  cases h : payloadTooLong s.params.encMaxN payload.length with
  | true => simp
  | false =>
    by_cases hs : size < 2 * payload.length + 8
    · simp [bufferTooSmall, hs]
    · simp [bufferTooSmall, hs, hf, encPutAll_pos]
      omega

end Sys2Proof.Machine
end

