-- ==== Sys2Proof/Laws/FrameDecoder.lean ====
section
/-! SUPPORT. The laws of the decoder's shared operations: everything a row can do to an instance, said once (`RowEffect`), and
what feeding one byte and a chunk do to the state. -/

namespace Sys2Proof.Machine

/-! ## Everything one row of 30_encoding.md R69 can do -/

/-- What one row can do to instance `d`, with the condition on the instance that a later proof needs. -/
inductive RowEffect (cap d : Nat) (x : Decoder) : Decoder × Option Event → Prop where
  | opened : RowEffect cap d x (rowOpen x)
  | ignored : RowEffect cap d x (rowIgnore x)
  | aborted (c : Diag) : RowEffect cap d x (rowAbort d x c)
  | delivered (hdr : Fin 3) (size : Nat) :
      x.ctl = .inFrame hdr false size Config.fcsGood → Config.minSize ≤ size → RowEffect cap d x (rowDeliver d x size)
  | badFcs (hdr : Fin 3) (size : Nat) (fcs : Word) :
      x.ctl = .inFrame hdr false size fcs → Config.minSize ≤ size → fcs ≠ Config.fcsGood →
      RowEffect cap d x (rowBadFcs d x size fcs)
  | escMarked : RowEffect cap d x (rowEscMark x)
  | hdrMatched (hdr : Fin 3) (esc esc' : Bool) (size : Nat) (fcs : Word) (r : Byte) :
      x.ctl = .inFrame hdr esc size fcs → expectedHdr hdr = some r →
      RowEffect cap d x (rowHdrMatch x r hdr esc' size fcs)
  | stored (hdr : Fin 3) (esc esc' : Bool) (size : Nat) (fcs : Word) (r : Byte) :
      x.ctl = .inFrame hdr esc size fcs → expectedHdr hdr = none → size < cap →
      RowEffect cap d x (rowStore x r hdr esc' size fcs)

/-- Rows 10 to 13. -/
theorem resolvedByte_effect {cap d : Nat} {x : Decoder} {hdr : Fin 3} {esc : Bool} {size : Nat} {fcs : Word}
    (h : x.ctl = .inFrame hdr esc size fcs) (esc' : Bool) (r : Byte) :
    RowEffect cap d x (resolvedByte cap d x r hdr esc' size fcs) := by
  unfold resolvedByte
  cases hh : expectedHdr hdr with
  | none =>
    simp only
    split
    · exact .stored hdr esc esc' size fcs r h hh ‹_›
    · exact .aborted _
  | some v =>
    simp only
    split
    · rename_i hr
      subst hr
      exact .hdrMatched hdr esc esc' size fcs r h hh
    · exact .aborted _

/-- DEC_BYTE takes exactly one row (42_decoder.md R130). -/
theorem decodeByte_effect (cap d : Nat) (x : Decoder) (b : Byte) : RowEffect cap d x (decodeByte cap d x b) := by
  unfold decodeByte
  cases hx : x.ctl with
  | idle =>
    simp only
    split
    · exact .opened
    · exact .ignored
  | inFrame hdr esc size fcs =>
    cases esc with
    | true =>
      by_cases hb : b = Config.flag
      · simp only [hb, if_true]; exact .aborted _
      · simp only [hb, if_false, if_true]; exact resolvedByte_effect hx false _
    | false =>
      by_cases hb : b = Config.flag
      · simp only [hb, if_true, Bool.false_eq_true, if_false]
        split
        · exact .opened
        · split
          · rename_i hs hf
            subst hf
            exact .delivered hdr size hx (Nat.le_of_not_lt hs)
          · exact .badFcs hdr size fcs hx (Nat.le_of_not_lt ‹_›) ‹_›
      · simp only [hb, if_false, Bool.false_eq_true]
        split
        · exact .escMarked
        · exact resolvedByte_effect hx false _

/-! ## Feeding bytes -/

theorem feedByte_some {d : Nat} {s : State} {x : Decoder} (h : s.decs[d]? = some x) (b : Byte) :
    feedByte d s b = afterByte s d (decodeByte s.params.decCap d x b) := by
  simp [feedByte, h]

/-- DEC_BYTE completes on every instance that exists. -/
theorem execDecByte_some {d : Nat} {s : State} {x : Decoder} (h : s.decs[d]? = some x) (b : Byte) :
    execDecByte d b s = .next (afterByte s d (decodeByte s.params.decCap d x b)) := by
  simp [execDecByte, withDecoder, h, feedByte_some h]

/-- DEC_PROCESS completes on every instance that exists. -/
theorem execDecProcess_some {d : Nat} {s : State} {x : Decoder} (h : s.decs[d]? = some x) (chunk : List Byte) :
    execDecProcess d chunk s = .next (feedChunk d s chunk) := by
  simp [execDecProcess, withDecoder, h]

@[simp] theorem feedChunk_nil (d : Nat) (s : State) : feedChunk d s [] = s := rfl

@[simp] theorem feedChunk_cons (d : Nat) (s : State) (b : Byte) (bs : List Byte) :
    feedChunk d s (b :: bs) = feedChunk d (feedByte d s b) bs := rfl

theorem feedChunk_append (d : Nat) (s : State) (xs ys : List Byte) :
    feedChunk d s (xs ++ ys) = feedChunk d (feedChunk d s xs) ys := List.foldl_append

theorem afterByte_get_same {s : State} {d : Nat} {x : Decoder} (r : Decoder × Option Event) (h : s.decs[d]? = some x) :
    (afterByte s d r).decs[d]? = some r.1 := putDecoder_get_same r.1 h

/-- The bytes of a chunk on the instance alone: its last state and its events, in order. -/
def runBytes (cap d : Nat) : Decoder → List Byte → Decoder × List Event
  | x, [] => (x, [])
  | x, b :: bs =>
    ((runBytes cap d (decodeByte cap d x b).1 bs).1,
      (decodeByte cap d x b).2.toList ++ (runBytes cap d (decodeByte cap d x b).1 bs).2)

theorem runBytes_append (cap d : Nat) (x : Decoder) (xs ys : List Byte) :
    runBytes cap d x (xs ++ ys) =
      ((runBytes cap d (runBytes cap d x xs).1 ys).1,
        (runBytes cap d x xs).2 ++ (runBytes cap d (runBytes cap d x xs).1 ys).2) := by
  induction xs generalizing x with
  | nil => rfl
  | cons b bs ih => simp [runBytes, ih]

theorem emitEvents_putDecoder_twice (s : State) (d : Nat) (y z : Decoder) (es fs : List Event) :
    emitEvents (putDecoder (emitEvents (putDecoder s d y) es) d z) fs =
      emitEvents (putDecoder s d z) (es ++ fs) := by
  simp [emitEvents, putDecoder]

/-- Feeding a chunk changes the instance and hands over its events, and nothing else (42_decoder.md R145). -/
theorem feedChunk_some {d : Nat} {s : State} {x : Decoder} (h : s.decs[d]? = some x) (chunk : List Byte) :
    feedChunk d s chunk =
      emitEvents (putDecoder s d (runBytes s.params.decCap d x chunk).1) (runBytes s.params.decCap d x chunk).2 := by
  induction chunk generalizing s x with
  | nil => simp [runBytes, emitEvents, putDecoder, set_getElem?_self h]
  | cons b bs ih =>
    rw [feedChunk_cons, feedByte_some h, ih (afterByte_get_same _ h)]
    simp only [afterByte, emitEvents_putDecoder_twice, runBytes]
    rfl

end Sys2Proof.Machine
end

