-- ==== Sys2Proof/Laws/Exec.lean ====
section
/-! SUPPORT. Everything a next state of `exec` and of `step` can be, said once: a row's effect, a chunk, a reset, a result, an
encoded frame or a recorded fault. -/

namespace Sys2Proof.Machine

/-- Every memory of the state after power-up, and so of the state after reset, is in canonical form. -/
theorem powerUp_mem_wf (n : Nat) (p : Params) :
    (∀ x ∈ (State.powerUp n p).decs, memWf x.buf = true) ∧ (∀ m ∈ (State.powerUp n p).encOut, memWf m.2 = true) := by
  refine ⟨fun x hx => ?_, fun m hm => nomatch hm⟩
  rw [(List.mem_replicate.1 hx).2]
  rfl

theorem reset_mem_wf :
    (∀ x ∈ State.reset.decs, memWf x.buf = true) ∧ (∀ m ∈ State.reset.encOut, memWf m.2 = true) :=
  powerUp_mem_wf _ _

/-- In a frame, a byte that resolves is processed as the byte it resolves to, with the escape cleared (42_decoder.md R137,
R139). -/
theorem decodeByte_of_resolvedOf {cap d : Nat} {x : Decoder} {hdr : Fin 3} {esc : Bool} {size : Nat} {fcs : Word}
    {b r : Byte} (h : x.ctl = .inFrame hdr esc size fcs) (hr : resolvedOf esc b = some r) :
    decodeByte cap d x b = resolvedByte cap d x r hdr false size fcs := by
  unfold resolvedOf at hr
  by_cases hf : b = 0x7E
  · simp [hf] at hr
  have hf' : b ≠ Config.flag := hf
  rw [if_neg hf] at hr
  cases esc with
  | true =>
    simp only [if_true, Option.some.injEq] at hr
    subst hr
    simp only [decodeByte, h, if_neg hf', if_true]
    rfl
  | false =>
    by_cases he : b = 0x7D
    · simp [he] at hr
    have he' : b ≠ Config.esc := he
    simp only [Bool.false_eq_true, if_false, if_neg he, Option.some.injEq] at hr
    subst hr
    simp [decodeByte, h, hf', he', rowResolve]

/-- Every next state of an instruction that names a decoder instance. -/
theorem exec_decoder_cases {i : Instr} {d : Nat} {s t : State} (hd : decoderOf i = some d) (h : exec i s = .next t) :
    ∃ x, s.decs[d]? = some x ∧
      ((∃ r, RowEffect s.params.decCap d x r ∧ t = afterByte s d r) ∨
        (∃ chunk, i = .decProcess d chunk ∧ t = feedChunk d s chunk) ∨
        (i = .reset d ∧ t = putDecoder s d { x with ctl := .idle })) := by
  cases i <;> simp only [decoderOf, Option.some.injEq, reduceCtorEq] at hd <;> subst hd <;> simp only [exec] at h
  case decByte d b =>
    obtain ⟨x, hx, h⟩ := withDecoder_next h
    rw [feedByte_some hx] at h
    cases h
    exact ⟨x, hx, .inl ⟨_, decodeByte_effect _ _ _ _, rfl⟩⟩
  case decProcess d chunk =>
    obtain ⟨x, hx, h⟩ := withDecoder_next h
    cases h
    exact ⟨x, hx, .inr (.inl ⟨chunk, rfl, rfl⟩)⟩
  case reset d =>
    obtain ⟨x, hx, h⟩ := withDecoder_next h
    cases h
    exact ⟨x, hx, .inr (.inr ⟨rfl, rfl⟩)⟩
  all_goals
    obtain ⟨x, r, hx, hr, rfl⟩ := onRow_next h
    refine ⟨x, hx, .inl ⟨r, ?_, rfl⟩⟩
    cases hc : x.ctl with
    | idle =>
      simp only [hc] at hr
      try split at hr
      all_goals first
        | cases hr; done
        | (cases hr; exact .opened)
        | (cases hr; exact .ignored)
    | inFrame hdr esc size fcs =>
      simp only [hc] at hr
      try split at hr
      all_goals first
        | cases hr; done
        | (cases hr; exact .opened)
        | (cases hr; exact .aborted _)
        | (cases hr; exact .escMarked)
        | (cases hr; exact resolvedByte_effect hc false _)
        | (rename_i hg; cases hr; obtain ⟨h1, h2, h3⟩ := hg; subst h1; subst h3; exact .delivered hdr size hc h2)
        | (rename_i hg; cases hr; obtain ⟨h1, h2, h3⟩ := hg; subst h1; exact .badFcs hdr size fcs hc h2 h3)
        | (rename_i hg; cases hr; exact .hdrMatched hdr esc esc size fcs _ hc hg)
        | (rename_i hg; cases hr; obtain ⟨h1, h2⟩ := hg; subst h1; exact .stored 2 esc esc size fcs _ hc rfl h2)

/-- Every next state of an instruction that names no decoder instance. -/
theorem exec_other_cases {i : Instr} {s t : State} (hd : decoderOf i = none) (h : exec i s = .next t) :
    (∃ o, t = emit s o) ∨
      (∃ payload size out, i = .encProcess payload size out ∧ size < 2 * payload.length + 8 ∧
        t = recordFault s (.encOverflow payload.length size)) ∨
      (∃ payload size out, i = .encProcess payload size out ∧ 2 * payload.length + 8 ≤ size ∧
        t = emit (putEncOut s out
          (encPutAll { pos := 0, fcs := Config.fcsInit, out := encBuf s out } (frameOf payload)).out)
          (.length (frameOf payload).length)) := by
  cases i <;> simp only [decoderOf, reduceCtorEq] at hd <;> simp only [exec] at h
  case encProcess payload size out =>
    rcases execEncProcess_cases payload size out s with ⟨_, he⟩ | ⟨_, hs, he⟩ | ⟨_, hs, he⟩ <;> rw [he] at h <;> cases h
    · exact .inr (.inl ⟨payload, size, out, rfl, hs, rfl⟩)
    · exact .inr (.inr ⟨payload, size, out, rfl, hs, rfl⟩)
  case stuffPass b =>
    unfold execStuffPass at h
    split at h
    · cases h
    · cases h; exact .inl ⟨_, rfl⟩
  all_goals first
    | (cases h; done)
    | (cases h; exact .inl ⟨_, rfl⟩)

/-- Every next state of a step: nothing was issued, or the next command's instruction ran. -/
theorem step_cases {s t : State} (h : step s = .next t) :
    (s.pending = [] ∧ t = s) ∨
      (∃ c cs i, s.pending = c :: cs ∧ decode { s with pending := cs } c = .ok i ∧
        exec i { s with pending := cs } = .next t) := by
  unfold step fetch at h
  cases hp : s.pending with
  | nil => rw [hp] at h; cases h; exact .inl ⟨rfl, rfl⟩
  | cons c cs =>
    rw [hp] at h
    simp only at h
    cases hi : decode { s with pending := cs } c with
    | error r => rw [hi] at h; cases h
    | ok i => rw [hi] at h; exact .inr ⟨c, cs, i, rfl, hi, h⟩

end Sys2Proof.Machine
end

