-- ==== Sys2Proof/Laws/PerInstr.lean ====
section
/-! SUPPORT. The per-instruction law `PackedForm`, one lemma per constructor of `Instr`. -/

/-- An instruction that has a packed word (30_encoding.md R67) is handed over as exactly that word, and every such
instruction is well-formed: the packed form restricts no operand. -/
def Sys2Proof.Laws.PackedForm.Statement (i : Sys2Proof.Instr) : Prop :=
  ∀ w, Sys2Proof.encodeWord i = some w → Sys2Proof.encode i = .packed w ∧ i.wellFormed = true

namespace Sys2Proof.Laws.PackedForm

theorem tblRead (i : Byte) : Statement (.tblRead i) :=
  fun _ h => ⟨congrArg Cmd.packed (Option.some.inj h), rfl⟩

theorem fcsUpdate (f : Word) (b : Byte) : Statement (.fcsUpdate f b) :=
  fun _ h => ⟨congrArg Cmd.packed (Option.some.inj h), rfl⟩

theorem encProcess (payload : List Byte) (size : Nat) (out : Nat) : Statement (.encProcess payload size out) :=
  fun _ h => nomatch h

theorem decByte (d : Nat) (b : Byte) : Statement (.decByte d b) := by
  intro w h
  simp only [encodeWord] at h
  split at h
  · rename_i hd
    cases h
    exact ⟨by simp only [encode, if_pos hd], rfl⟩
  · cases h

theorem decProcess (d : Nat) (chunk : List Byte) : Statement (.decProcess d chunk) :=
  fun _ h => nomatch h

theorem reset (d : Nat) : Statement (.reset d) := by
  intro w h
  simp only [encodeWord] at h
  split at h
  · rename_i hd
    cases h
    exact ⟨by simp only [encode, if_pos hd], rfl⟩
  · cases h

theorem reservedOpsel0 (rest : BitVec 28) : Statement (.reservedOpsel0 rest) :=
  fun _ h => ⟨congrArg Cmd.packed (Option.some.inj h), rfl⟩

theorem reservedOpsel7 (rest : BitVec 28) : Statement (.reservedOpsel7 rest) :=
  fun _ h => ⟨congrArg Cmd.packed (Option.some.inj h), rfl⟩

theorem reservedOpsel8 (rest : BitVec 28) : Statement (.reservedOpsel8 rest) :=
  fun _ h => ⟨congrArg Cmd.packed (Option.some.inj h), rfl⟩

theorem reservedOpsel9 (rest : BitVec 28) : Statement (.reservedOpsel9 rest) :=
  fun _ h => ⟨congrArg Cmd.packed (Option.some.inj h), rfl⟩

theorem reservedOpselA (rest : BitVec 28) : Statement (.reservedOpselA rest) :=
  fun _ h => ⟨congrArg Cmd.packed (Option.some.inj h), rfl⟩

theorem reservedOpselB (rest : BitVec 28) : Statement (.reservedOpselB rest) :=
  fun _ h => ⟨congrArg Cmd.packed (Option.some.inj h), rfl⟩

theorem reservedOpselC (rest : BitVec 28) : Statement (.reservedOpselC rest) :=
  fun _ h => ⟨congrArg Cmd.packed (Option.some.inj h), rfl⟩

theorem reservedOpselD (rest : BitVec 28) : Statement (.reservedOpselD rest) :=
  fun _ h => ⟨congrArg Cmd.packed (Option.some.inj h), rfl⟩

theorem reservedOpselE (rest : BitVec 28) : Statement (.reservedOpselE rest) :=
  fun _ h => ⟨congrArg Cmd.packed (Option.some.inj h), rfl⟩

theorem reservedOpselF (rest : BitVec 28) : Statement (.reservedOpselF rest) :=
  fun _ h => ⟨congrArg Cmd.packed (Option.some.inj h), rfl⟩

theorem fcsFold (f : Word) (bytes : List Byte) : Statement (.fcsFold f bytes) :=
  fun _ h => nomatch h

theorem stuffEsc : Statement .stuffEsc :=
  fun _ h => nomatch h

theorem stuffFlag : Statement .stuffFlag :=
  fun _ h => nomatch h

theorem stuffPass (b : Byte) : Statement (.stuffPass b) :=
  fun _ h => nomatch h

theorem decIdleFlag (d : Nat) : Statement (.decIdleFlag d) :=
  fun _ h => nomatch h

theorem decIdleOther (d : Nat) (b : Byte) : Statement (.decIdleOther d b) :=
  fun _ h => nomatch h

theorem decEscFlag (d : Nat) : Statement (.decEscFlag d) :=
  fun _ h => nomatch h

theorem decCloseShort (d : Nat) : Statement (.decCloseShort d) :=
  fun _ h => nomatch h

theorem decCloseGood (d : Nat) : Statement (.decCloseGood d) :=
  fun _ h => nomatch h

theorem decCloseBadfcs (d : Nat) : Statement (.decCloseBadfcs d) :=
  fun _ h => nomatch h

theorem decUnescape (d : Nat) (b : Byte) : Statement (.decUnescape d b) :=
  fun _ h => nomatch h

theorem decEscMark (d : Nat) : Statement (.decEscMark d) :=
  fun _ h => nomatch h

theorem decLiteral (d : Nat) (b : Byte) : Statement (.decLiteral d b) :=
  fun _ h => nomatch h

theorem decHdrMatch (d : Nat) (r : Byte) : Statement (.decHdrMatch d r) :=
  fun _ h => nomatch h

theorem decHdrBad (d : Nat) (r : Byte) : Statement (.decHdrBad d r) :=
  fun _ h => nomatch h

theorem decStore (d : Nat) (r : Byte) : Statement (.decStore d r) :=
  fun _ h => nomatch h

theorem decOversize (d : Nat) (r : Byte) : Statement (.decOversize d r) :=
  fun _ h => nomatch h

end Sys2Proof.Laws.PackedForm
end

