-- ==== Sys2Proof/Tests/Slice0.lean ====
section
/-! SUPPORT. The model's own tests: ill-formed terms, words written out from the encodings, the vectors of 95_test_vectors.md (every
expected result is taken from that file or from the rule named), and for each statement with hypotheses a concrete state and
operands that meet them (`witness_...`). -/

namespace Sys2Proof.Tests

open Sys2Proof Sys2Proof.Machine

/-! ## Helpers: small states, and the parts of an outcome that a test looks at -/

/-- Two instances with capacity `cap`, instance 0 in the given control state with the given buffer, instance 1 in Idle. -/
def two (cap : Nat) (c : Ctl) (buf : Mem) : State :=
  { State.powerUp 2 { decCap := cap, encMaxN := none } with decs := [⟨c, buf⟩, ⟨.idle, []⟩] }

/-- Instance 0 and the outputs of a next state. -/
def inst (o : Host.Outcome State Fault Refusal) : Option (Option Decoder × List Output) :=
  match o with
  | .next t => some (t.decs[0]?, t.outputs)
  | .fault _ => none
  | .refused _ => none

/-- Instance 0 and the event labels of a next state (no payload copies). -/
def labels (o : Host.Outcome State Fault Refusal) : Option (Option Decoder × List Event) :=
  match o with
  | .next t => some (t.decs[0]?, t.outputs.filterMap fun x => match x with
      | .event e => some (eventLabel e)
      | _ => none)
  | .fault _ => none
  | .refused _ => none

/-- The outputs of a next state. -/
def outs (o : Host.Outcome State Fault Refusal) : Option (List Output) :=
  match o with
  | .next t => some t.outputs
  | .fault _ => none
  | .refused _ => none

/-- The host's buffers, the outputs and the faults of a next state. -/
def encs (o : Host.Outcome State Fault Refusal) : Option (List (Nat × Mem) × List Output × List Fault) :=
  match o with
  | .next t => some (t.encOut, t.outputs, t.faults)
  | .fault _ => none
  | .refused _ => none

/-- The refusal of an outcome. -/
def refusal (o : Host.Outcome State Fault Refusal) : Option Refusal :=
  match o with
  | .next _ => none
  | .fault _ => none
  | .refused r => some r

/-- A fresh state with capacity 64 and no frame in progress. -/
def s0 : State := two 64 .idle []

/-- `bytes` listed from offset 0. -/
def image (bytes : List Byte) : Mem := (List.range bytes.length).zip bytes

/-! ## WellFormed: each check refuses an ill-formed term and admits a well-formed one -/

theorem test_wf_stuffPass :
    (Instr.stuffPass 0x7D).wellFormed = false ∧ (Instr.stuffPass 0x7E).wellFormed = false ∧
    (Instr.stuffPass 0x7C).wellFormed = true := by decide

theorem test_wf_decIdleOther :
    (Instr.decIdleOther 0 0x7E).wellFormed = false ∧ (Instr.decIdleOther 0 0x7D).wellFormed = true := by decide

theorem test_wf_decUnescape :
    (Instr.decUnescape 0 0x7E).wellFormed = false ∧ (Instr.decUnescape 0 0x7D).wellFormed = true := by decide

theorem test_wf_decLiteral :
    (Instr.decLiteral 0 0x7D).wellFormed = false ∧ (Instr.decLiteral 0 0x7E).wellFormed = false ∧
    (Instr.decLiteral 0 0x7F).wellFormed = true := by decide

theorem test_wf_decHdrMatch :
    (Instr.decHdrMatch 0 0x21).wellFormed = false ∧ (Instr.decHdrMatch 0 0xFF).wellFormed = true ∧
    (Instr.decHdrMatch 0 0x03).wellFormed = true := by decide

/-! ## Words written out from 30_encoding.md R67, R68 and R70 -/

/-- V-TBL-4, V-FCS-3: `0001 0000 0000000000000000 01111101` and `0010 0000 0011110111100011 01000001`. -/
theorem test_words_fcs16 :
    decodeTableWord 32 0b0001_0000_0000000000000000_01111101 = some (.tblRead 0x7D) ∧
    decodeTableWord 32 0b0010_0000_0011110111100011_01000001 = some (.fcsUpdate 0x3DE3 0x41) := by decide

/-- OPSEL 4 and 6 with instances 3 and 5; R145's `0x4d0000b0`. -/
theorem test_words_decoder :
    decodeTableWord 32 0b0100_0011_0000000000000000_01111110 = some (.decByte 3 0x7E) ∧
    decodeTableWord 32 0b0110_0101_0000000000000000_00000000 = some (.reset 5) ∧
    decodeTableWord 32 0x4F0000B0 = some (.decByte 15 0xB0) := by decide

/-- The ten reserved values of OPSEL. -/
theorem test_words_reserved :
    decodeTableWord 32 0x00000000 = some (.reservedOpsel0 0) ∧ decodeTableWord 32 0x70000001 = some (.reservedOpsel7 1) ∧
    decodeTableWord 32 0x8FFFFFFF = some (.reservedOpsel8 0xFFFFFFF) ∧ decodeTableWord 32 0x90000000 = some (.reservedOpsel9 0) ∧
    decodeTableWord 32 0xA1234567 = some (.reservedOpselA 0x1234567) ∧ decodeTableWord 32 0xB0000000 = some (.reservedOpselB 0) ∧
    decodeTableWord 32 0xC0000000 = some (.reservedOpselC 0) ∧ decodeTableWord 32 0xD0000000 = some (.reservedOpselD 0) ∧
    decodeTableWord 32 0xE0000000 = some (.reservedOpselE 0) ∧ decodeTableWord 32 0xFFFFFFFF = some (.reservedOpselF 0xFFFFFFF) := by
  decide

/-- Must-be-zero fields, and the two OPSEL values without a packed form. -/
theorem test_words_refused :
    decodeWord 0x11000000 = .error (.mustBeZero 1) ∧ decodeWord 0x10000100 = .error (.mustBeZero 1) ∧
    decodeWord 0x21000000 = .error (.mustBeZero 2) ∧ decodeWord 0x40000100 = .error (.mustBeZero 4) ∧
    decodeWord 0x60000001 = .error (.mustBeZero 6) ∧ decodeWord 0x60800000 = .error (.mustBeZero 6) ∧
    decodeWord 0x30000000 = .error (.noPackedForm 3) ∧ decodeWord 0x50000000 = .error (.noPackedForm 5) := by
  refine ⟨?_, ?_, ?_, ?_, ?_, ?_, ?_, ?_⟩ <;> rfl

/-- The stuffer's classes (R70); no width but 8 and 32 is in the table. -/
theorem test_words_stuffer :
    decodeTableWord 8 0x7D = some .stuffEsc ∧ decodeTableWord 8 0x7E = some .stuffFlag ∧
    decodeTableWord 8 0x5E = some (.stuffPass 0x5E) ∧ decodeTableWord 16 0x7E = none := by decide

/-- The operations whose operands come by value (R67, R74). -/
theorem test_words_by_value :
    decode s0 (.encode [0x41] 10 0) = .ok (.encProcess [0x41] 10 0) ∧
    decode s0 (.chunk 1 [0x7E]) = .ok (.decProcess 1 [0x7E]) ∧
    decode s0 (.fold 0xFFFF [0x31]) = .ok (.fcsFold 0xFFFF [0x31]) ∧
    decode s0 (.feed 16 0x7E) = .ok (.decByte 16 0x7E) ∧ decode s0 (.resetInst 16) = .ok (.reset 16) := by
  refine ⟨?_, ?_, ?_, ?_, ?_⟩ <;> rfl

/-- Rows 1 to 9 of R69: the byte and the state choose the row. -/
theorem test_wire_rows :
    classifyWire 0 0x7E .idle = .decIdleFlag 0 ∧ classifyWire 0 0x7D .idle = .decIdleOther 0 0x7D ∧
    classifyWire 0 0x7E (.inFrame 2 true 5 0xF0B8) = .decEscFlag 0 ∧
    classifyWire 0 0x7E (.inFrame 2 false 3 0xF0B8) = .decCloseShort 0 ∧
    classifyWire 0 0x7E (.inFrame 2 false 4 0xF0B8) = .decCloseGood 0 ∧
    classifyWire 0 0x7E (.inFrame 2 false 4 0xE131) = .decCloseBadfcs 0 ∧
    classifyWire 0 0x7D (.inFrame 2 true 0 0x3DE3) = .decUnescape 0 0x7D ∧
    classifyWire 0 0x7D (.inFrame 2 false 0 0x3DE3) = .decEscMark 0 ∧
    classifyWire 0 0x5D (.inFrame 2 false 0 0x3DE3) = .decLiteral 0 0x5D := by decide

/-- Rows 10 to 13 of R69. -/
theorem test_resolved_rows :
    classifyResolved 8 0 0xFF (.inFrame 0 false 0 0xFFFF) = some (.decHdrMatch 0 0xFF) ∧
    classifyResolved 8 0 0x03 (.inFrame 1 false 0 0x00FF) = some (.decHdrMatch 0 0x03) ∧
    classifyResolved 8 0 0x03 (.inFrame 0 false 0 0xFFFF) = some (.decHdrBad 0 0x03) ∧
    classifyResolved 8 0 0x7E (.inFrame 2 false 7 0x1234) = some (.decStore 0 0x7E) ∧
    classifyResolved 8 0 0x41 (.inFrame 2 false 8 0x1234) = some (.decOversize 0 0x41) ∧
    classifyResolved 8 0 0x41 .idle = none := by decide

/-! ## The FCS16 unit: V-TBL, V-FCS -/

theorem test_tblRead :
    outs (exec (.tblRead 0x01) s0) = some [.word 0x1189] ∧ outs (exec (.tblRead 0xA5) s0) = some [.word 0xF2A7] ∧
    outs (exec (.tblRead 0xFF) s0) = some [.word 0x0F78] := by decide

theorem test_fcsUpdate :
    outs (exec (.fcsUpdate 0xFFFF 0xFF) s0) = some [.word 0x00FF] ∧
    outs (exec (.fcsUpdate 0x00FF 0x03) s0) = some [.word 0x3DE3] ∧
    outs (exec (.fcsUpdate 0x1234 0x7E) s0) = some [.word 0xED4C] := by decide

theorem test_fcsFold :
    outs (exec (.fcsFold 0xFFFF [0x31, 0x32, 0x33, 0x34, 0x35, 0x36, 0x37, 0x38, 0x39]) s0) = some [.word 0x6F91] ∧
    outs (exec (.fcsFold 0xFFFF []) s0) = some [.word 0xFFFF] ∧
    outs (exec (.fcsFold 0xFFFF [0xFF, 0x03, 0x1C, 0xC2]) s0) = some [.word 0xF0B8] := by decide +kernel

/-! ## The encoder: V-STF, V-ENC -/

theorem test_stuffEsc : outs (exec .stuffEsc s0) = some [.bytes [0x7D, 0x5D]] := by decide

theorem test_stuffFlag : outs (exec .stuffFlag s0) = some [.bytes [0x7D, 0x5E]] := by decide

theorem test_stuffPass :
    outs (exec (.stuffPass 0x5E) s0) = some [.bytes [0x5E]] ∧ outs (exec (.stuffPass 0x7C) s0) = some [.bytes [0x7C]] ∧
    refusal (exec (.stuffPass 0x7E) s0) = some .rowNotMatched := by decide

/-- V-ENC-13: both FCS bytes are escaped; V-ENC-12 by its frame. -/
theorem test_encProcess_fcs_escaped :
    encs (exec (.encProcess [0x07, 0xC2] 12 3) s0) =
      some ([(3, image [0x7E, 0xFF, 0x03, 0x07, 0xC2, 0x7D, 0x5E, 0x7D, 0x5E, 0x7E])], [.length 10], []) ∧
    frameOf [0x00, 0x4E] = [0x7E, 0xFF, 0x03, 0x00, 0x4E, 0x12, 0x7D, 0x5D, 0x7E] := by decide +kernel

/-- V-ENC-18 (the overflow although `L = 8` would fit), V-ENC-1, and the length of V-ENC-14 (`L = 2n + 8`). -/
theorem test_encProcess_bounds :
    encs (exec (.encProcess [0x41, 0x42] 11 0) s0) = some ([], [], [.encOverflow 2 11]) ∧
    frameOf [] = [0x7E, 0xFF, 0x03, 0x1C, 0xC2, 0x7E] ∧
    (frameOf [0x7D, 0x7E, 0x7D, 0x7E, 0x7E, 0x7E, 0x7D, 0x7E, 0x7E, 0x7D, 0x7E, 0x7E, 0x7D]).length = 34 := by
  decide +kernel

/-! ## The decoder, one vector per arm: V-DEC -/

/-- V-DEC-12 and V-DEC-24 (`C = 0`). -/
theorem test_decByte :
    labels (exec (.decByte 0 0xDF) (two 8 (.inFrame 0 true 0 0xFFFF) [])) = some (some ⟨.inFrame 1 false 0 0x00FF, []⟩, []) ∧
    labels (exec (.decByte 0 0x41) (two 0 (.inFrame 2 false 0 0x3DE3) [])) = some (some ⟨.idle, []⟩, [.diag 0 .oversize]) := by
  decide +kernel

/-- V-DEC-1, and that the row refuses an instance that is in a frame. -/
theorem test_decIdleFlag :
    inst (exec (.decIdleFlag 0) (two 8 .idle [])) = some (some ⟨.inFrame 0 false 0 0xFFFF, []⟩, []) ∧
    refusal (exec (.decIdleFlag 0) (two 8 freshFrame [])) = some .rowNotMatched := by decide

/-- V-DEC-3. -/
theorem test_decIdleOther :
    inst (exec (.decIdleOther 0 0x7D) (two 8 .idle [])) = some (some ⟨.idle, []⟩, []) ∧
    refusal (exec (.decIdleOther 0 0x7E) (two 8 .idle [])) = some .rowNotMatched := by decide

/-- V-DEC-4. -/
theorem test_decEscFlag :
    inst (exec (.decEscFlag 0) (two 8 (.inFrame 2 true 5 0x1234) [])) =
      some (some ⟨.idle, []⟩, [.event (.diag 0 .escFlag)]) ∧
    refusal (exec (.decEscFlag 0) (two 8 (.inFrame 2 false 5 0x1234) [])) = some .rowNotMatched := by decide

/-- V-DEC-7. -/
theorem test_decCloseShort :
    inst (exec (.decCloseShort 0) (two 8 (.inFrame 2 false 3 0xF0B8) [])) =
      some (some ⟨.inFrame 0 false 0 0xFFFF, []⟩, []) ∧
    refusal (exec (.decCloseShort 0) (two 8 (.inFrame 2 false 4 0xF0B8) [])) = some .rowNotMatched := by decide

/-- V-DEC-8, with the payload of W1 in the buffer. -/
theorem test_decCloseGood :
    inst (exec (.decCloseGood 0) (two 8 (.inFrame 2 false 4 0xF0B8) (image [0x41, 0x42, 0xC0, 0xE8]))) =
      some (some ⟨.inFrame 0 false 0 0xFFFF, image [0x41, 0x42, 0xC0, 0xE8]⟩, [.event (.frameReady 0 2 [0x41, 0x42])]) := by
  decide +kernel

/-- V-DEC-9. -/
theorem test_decCloseBadfcs :
    inst (exec (.decCloseBadfcs 0) (two 8 (.inFrame 2 false 4 0xE131) [])) =
      some (some ⟨.inFrame 0 false 0 0xFFFF, []⟩, [.event (.diag 0 (.badFcs 0xE131 4))]) ∧
    refusal (exec (.decCloseBadfcs 0) (two 8 (.inFrame 2 false 4 0xF0B8) [])) = some .rowNotMatched := by decide

/-- V-DEC-10 and V-DEC-11. -/
theorem test_decUnescape :
    inst (exec (.decUnescape 0 0x5E) (two 8 (.inFrame 2 true 0 0x3DE3) [])) =
      some (some ⟨.inFrame 2 false 1 0x4F51, [(0, 0x7E)]⟩, []) ∧
    inst (exec (.decUnescape 0 0x7D) (two 8 (.inFrame 2 true 0 0x3DE3) [])) =
      some (some ⟨.inFrame 2 false 1 0x5CC8, [(0, 0x5D)]⟩, []) := by decide +kernel

/-- V-DEC-14. -/
theorem test_decEscMark :
    inst (exec (.decEscMark 0) (two 8 (.inFrame 1 false 0 0x00FF) [])) =
      some (some ⟨.inFrame 1 true 0 0x00FF, []⟩, []) ∧
    refusal (exec (.decEscMark 0) (two 8 (.inFrame 1 true 0 0x00FF) [])) = some .rowNotMatched := by decide

/-- V-DEC-19 and V-DEC-17. -/
theorem test_decLiteral :
    inst (exec (.decLiteral 0 0x41) (two 8 (.inFrame 2 false 0 0x3DE3) [])) =
      some (some ⟨.inFrame 2 false 1 0x8625, [(0, 0x41)]⟩, []) ∧
    inst (exec (.decLiteral 0 0x21) (two 8 (.inFrame 0 false 0 0xFFFF) [])) =
      some (some ⟨.idle, []⟩, [.event (.diag 0 .badHeader)]) := by decide +kernel

/-- The end state of V-DEC-16. -/
theorem test_decHdrMatch :
    inst (exec (.decHdrMatch 0 0x03) (two 8 (.inFrame 1 false 0 0x00FF) [])) =
      some (some ⟨.inFrame 2 false 0 0x3DE3, []⟩, []) ∧
    refusal (exec (.decHdrMatch 0 0x03) (two 8 (.inFrame 0 false 0 0xFFFF) [])) = some .rowNotMatched := by decide +kernel

/-- The end state and event of V-DEC-18. -/
theorem test_decHdrBad :
    inst (exec (.decHdrBad 0 0x21) (two 8 (.inFrame 1 false 0 0x00FF) [])) =
      some (some ⟨.idle, []⟩, [.event (.diag 0 .badHeader)]) ∧
    refusal (exec (.decHdrBad 0 0x03) (two 8 (.inFrame 1 false 0 0x00FF) [])) = some .rowNotMatched := by decide

/-- The end state of V-DEC-20, the last free slot. -/
theorem test_decStore :
    inst (exec (.decStore 0 0x41) (two 8 (.inFrame 2 false 7 0x1234) [])) =
      some (some ⟨.inFrame 2 false 8 0x2438, [(7, 0x41)]⟩, []) ∧
    refusal (exec (.decStore 0 0x41) (two 8 (.inFrame 2 false 8 0x1234) [])) = some .rowNotMatched := by decide +kernel

/-- The end state and event of V-DEC-21. -/
theorem test_decOversize :
    inst (exec (.decOversize 0 0x41) (two 8 (.inFrame 2 false 8 0x1234) [])) =
      some (some ⟨.idle, []⟩, [.event (.diag 0 .oversize)]) ∧
    refusal (exec (.decOversize 0 0x41) (two 8 (.inFrame 2 false 7 0x1234) [])) = some .rowNotMatched := by decide

/-- V-DS-11 (`7D 7D` for 5D) and V-DS-6 (an escaped flag aborts without re-arming). -/
theorem test_decProcess :
    inst (exec (.decProcess 0 [0x7E, 0xFF, 0x03, 0x7D, 0x7D, 0x41, 0x6A, 0xE6, 0x7E]) s0) =
      some (some ⟨freshFrame, image [0x5D, 0x41, 0x6A, 0xE6]⟩, [.event (.frameReady 0 2 [0x5D, 0x41])]) ∧
    inst (exec (.decProcess 0 [0x7E, 0xFF, 0x03, 0x41, 0x7D, 0x7E, 0xFF, 0x03, 0x41, 0x42, 0xC0, 0xE8, 0x7E]) s0) =
      some (some ⟨freshFrame, image [0x41]⟩, [.event (.diag 0 .escFlag)]) := by decide +kernel

/-- V-DS-14: oversize with `C = 4`, then a frame of exactly `C`. -/
theorem test_decProcess_oversize :
    inst (exec (.decProcess 0 [0x7E, 0xFF, 0x03, 0x41, 0x42, 0x43, 0x03, 0x46, 0x7E, 0xFF, 0x03, 0x41, 0x42, 0xC0, 0xE8, 0x7E])
        (two 4 .idle [])) =
      some (some ⟨freshFrame, image [0x41, 0x42, 0xC0, 0xE8]⟩,
        [.event (.diag 0 .oversize), .event (.frameReady 0 2 [0x41, 0x42])]) := by decide +kernel

/-- R170: the codes of the four diagnostics. -/
theorem test_diagCode :
    diagCode .escFlag = 1 ∧ diagCode (.badFcs 0xE131 4) = 2 ∧ diagCode .badHeader = 3 ∧ diagCode .oversize = 4 := by decide

/-- R190: a frame in progress is given up without an event; an instance that does not exist is refused. -/
theorem test_reset :
    inst (exec (.reset 0) (two 8 (.inFrame 2 true 5 0x1234) [(0, 0x41)])) = some (some ⟨.idle, [(0, 0x41)]⟩, []) ∧
    refusal (exec (.reset 2) s0) = some (.noSuchDecoder 2) := by decide

/-- R68, R175. -/
theorem test_reserved :
    refusal (exec (.reservedOpsel0 0) s0) = some (.reservedOpsel 0) ∧
    refusal (exec (.reservedOpsel7 1) s0) = some (.reservedOpsel 7) ∧
    refusal (exec (.reservedOpsel8 0xFFFFFFF) s0) = some (.reservedOpsel 8) ∧
    refusal (exec (.reservedOpsel9 0) s0) = some (.reservedOpsel 9) ∧
    refusal (exec (.reservedOpselA 0) s0) = some (.reservedOpsel 10) ∧
    refusal (exec (.reservedOpselB 0) s0) = some (.reservedOpsel 11) ∧
    refusal (exec (.reservedOpselC 0) s0) = some (.reservedOpsel 12) ∧
    refusal (exec (.reservedOpselD 0) s0) = some (.reservedOpsel 13) ∧
    refusal (exec (.reservedOpselE 0) s0) = some (.reservedOpsel 14) ∧
    refusal (exec (.reservedOpselF 0) s0) = some (.reservedOpsel 15) := by decide

/-- The host's word as the first instruction after reset: V-TBL-7, and a reserved word. -/
theorem test_first_step :
    outs (step (State.reset.withFetchWord 32 0x100000A5)) = some [.word 0xF2A7] ∧
    outs (step (State.reset.withFetchWord 8 0x7E)) = some [.bytes [0x7D, 0x5E]] ∧
    refusal (step (State.reset.withFetchWord 32 0x70000000)) = some (.reservedOpsel 7) := by decide +kernel

/-! ## Witnesses: for each statement with hypotheses, concrete values that meet all of them

One witness for each clause, at boundary values of its range. -/

/-- The 4-byte frame of W1 received, its closing flag still to come, with capacity 4 (`size = C`). -/
def goodFrame : State := two 4 (.inFrame 2 false 4 0xF0B8) (image [0x41, 0x42, 0xC0, 0xE8])

/-- `goodFrame` with the closing flag as the host's next operation. -/
def goodFrameClosing : State := { goodFrame with pending := [.wire 0 0x7E] }

/-- A payload limit of two bytes. -/
def limited : State := { s0 with params := { decCap := 64, encMaxN := some 2 } }

theorem witness_ResultOnlyOperationsChangeNothingElse :
    exec (.tblRead 0x80) s0 = .next (emit s0 (.word (fcsTable 0x80))) ∧
    exec (.fcsUpdate 0xFFFF 0xFF) s0 = .next (emit s0 (.word (fcsUpdate 0xFFFF 0xFF))) ∧
    exec (.fcsFold 0xFFFF [0x31]) s0 = .next (emit s0 (.word (fcsFoldBytes 0xFFFF [0x31]))) ∧
    exec .stuffEsc s0 = .next (emit s0 (.bytes (stuff 0x7D))) ∧
    exec .stuffFlag s0 = .next (emit s0 (.bytes (stuff 0x7E))) ∧
    exec (.stuffPass 0x7F) s0 = .next (emit s0 (.bytes (stuff 0x7F))) :=
  ⟨rfl, rfl, rfl, rfl, rfl, rfl⟩

theorem witness_FcsResidueLaw :
    (0xE8C0 : Word) = [0xFF, 0x03, 0x41, 0x42].foldl fcsUpdate 0xFFFF ^^^ 0xFFFF := by decide +kernel

theorem witness_StufferClassesGiveTheirBytes :
    ((0x7C : Byte) ≠ 0x7D ∧ (0x7C : Byte) ≠ 0x7E) ∧ ((0x7F : Byte) ≠ 0x7D ∧ (0x7F : Byte) ≠ 0x7E) := by decide

theorem witness_StuffedByteShape :
    ((0x7D : Byte) = 0x7D ∨ (0x7D : Byte) = 0x7E) ∧ ((0x7E : Byte) = 0x7D ∨ (0x7E : Byte) = 0x7E) ∧
    ¬((0x7C : Byte) = 0x7D ∨ (0x7C : Byte) = 0x7E) ∧ ¬((0x7F : Byte) = 0x7D ∨ (0x7F : Byte) = 0x7E) := by decide

/-- A payload one over the limit; a payload at the limit with `S = 2n + 7` and with `S = 2n + 8`. -/
theorem witness_EncProcessWritesTheFrame :
    (limited.params.encMaxN = some 2 ∧ 2 < [(0x41 : Byte), 0x42, 0x43].length) ∧
    (∀ m, limited.params.encMaxN = some m → [(0x41 : Byte), 0x42].length ≤ m) ∧
    (11 < 2 * [(0x41 : Byte), 0x42].length + 8) ∧ (2 * [(0x41 : Byte), 0x42].length + 8 ≤ 12) :=
  ⟨⟨rfl, by decide⟩, fun m h => by cases h; decide, by decide, by decide⟩

/-- `S = 2n + 8` exactly, for the empty payload and for a payload at the limit. -/
theorem witness_EncodedLengthBounds :
    (∃ t, 2 * ([] : List Byte).length + 8 ≤ 8 ∧ exec (.encProcess [] 8 0) s0 = .next t) ∧
    ∃ t, 2 * [(0x7E : Byte), 0x7D].length + 8 ≤ 12 ∧ exec (.encProcess [0x7E, 0x7D] 12 1) limited = .next t :=
  ⟨⟨_, by decide, rfl⟩, ⟨_, by decide, rfl⟩⟩

theorem witness_EncodedFlagAndHeaderPositions :
    (∃ t, 2 * ([] : List Byte).length + 8 ≤ 8 ∧ exec (.encProcess [] 8 0) s0 = .next t) ∧
    ∃ t, 2 * [(0x7E : Byte), 0x7D].length + 8 ≤ 12 ∧ exec (.encProcess [0x7E, 0x7D] 12 1) limited = .next t :=
  ⟨⟨_, by decide, rfl⟩, ⟨_, by decide, rfl⟩⟩

theorem witness_EncoderIsStateless :
    ∃ t1 t2, 2 * [(0x41 : Byte), 0x42].length + 8 ≤ 12 ∧ 2 * [(0x41 : Byte), 0x42].length + 8 ≤ 40 ∧
      exec (.encProcess [0x41, 0x42] 12 0) s0 = .next t1 ∧ exec (.encProcess [0x41, 0x42] 40 7) limited = .next t2 :=
  ⟨_, _, by decide, by decide, rfl, rfl⟩

theorem witness_IdleFlagOpensFrame : (two 8 .idle []).decs[0]? = some ⟨.idle, []⟩ := rfl

theorem witness_IdleIgnoresOtherBytes :
    (two 8 .idle []).decs[0]? = some ⟨.idle, []⟩ ∧ (0x7D : Byte) ≠ 0x7E := ⟨rfl, by decide⟩

/-- Also in a frame without a header byte. -/
theorem witness_EscapedFlagAbortsFrame :
    (two 8 (.inFrame 2 true 5 0x1234) []).decs[0]? = some ⟨.inFrame 2 true 5 0x1234, []⟩ ∧
    (two 8 (.inFrame 0 true 0 0xFFFF) []).decs[0]? = some ⟨.inFrame 0 true 0 0xFFFF, []⟩ ∧
    0x7E ∉ ([0x41, 0x7D] : List Byte) ∧ s0.decs[0]? = some ⟨.idle, []⟩ := ⟨rfl, rfl, by decide, rfl⟩

/-- The largest silent size, with the good residue. -/
theorem witness_ShortFrameIsSilent :
    (two 8 (.inFrame 2 false 3 0xF0B8) []).decs[0]? = some ⟨.inFrame 2 false 3 0xF0B8, []⟩ ∧ 3 < 4 := ⟨rfl, by decide⟩

theorem witness_GoodFrameIsDelivered :
    (two 8 (.inFrame 2 false 4 0xF0B8) []).decs[0]? = some ⟨.inFrame 2 false 4 0xF0B8, []⟩ ∧ 4 ≤ 4 := ⟨rfl, by decide⟩

theorem witness_BadChecksumIsDiagnosed :
    (two 8 (.inFrame 2 false 4 0xE131) []).decs[0]? = some ⟨.inFrame 2 false 4 0xE131, []⟩ ∧ 4 ≤ 4 ∧
    (0xE131 : Word) ≠ 0xF0B8 := ⟨rfl, by decide, by decide⟩

/-- `7D 7D`, and an escaped header byte. -/
theorem witness_PendingEscapeUnescapesNextByte :
    (two 8 (.inFrame 2 true 0 0x3DE3) []).decs[0]? = some ⟨.inFrame 2 true 0 0x3DE3, []⟩ ∧ (0x7D : Byte) ≠ 0x7E ∧
    (two 8 (.inFrame 0 true 0 0xFFFF) []).decs[0]? = some ⟨.inFrame 0 true 0 0xFFFF, []⟩ ∧ (0xDF : Byte) ≠ 0x7E :=
  ⟨rfl, by decide, rfl, by decide⟩

theorem witness_EscapeMarkerOnlySetsFlag :
    (two 8 (.inFrame 1 false 0 0x00FF) []).decs[0]? = some ⟨.inFrame 1 false 0 0x00FF, []⟩ := rfl

theorem witness_LiteralByteIsUsedAsIs :
    (two 8 (.inFrame 2 false 0 0x3DE3) []).decs[0]? = some ⟨.inFrame 2 false 0 0x3DE3, []⟩ ∧
    (0x7F : Byte) ≠ 0x7D ∧ (0x7F : Byte) ≠ 0x7E ∧ (0x7C : Byte) ≠ 0x7D ∧ (0x7C : Byte) ≠ 0x7E :=
  ⟨rfl, by decide, by decide, by decide, by decide⟩

/-- Both header bytes. -/
theorem witness_HeaderByteIsMatchedAndFolded :
    (two 8 (.inFrame 0 false 0 0xFFFF) []).decs[0]? = some ⟨.inFrame 0 false 0 0xFFFF, []⟩ ∧
    (((0 : Fin 3) = 0 ∧ (0xFF : Byte) = 0xFF) ∨ ((0 : Fin 3) = 1 ∧ (0xFF : Byte) = 0x03)) ∧
    (two 8 (.inFrame 1 false 0 0x00FF) []).decs[0]? = some ⟨.inFrame 1 false 0 0x00FF, []⟩ ∧
    (((1 : Fin 3) = 0 ∧ (0x03 : Byte) = 0xFF) ∨ ((1 : Fin 3) = 1 ∧ (0x03 : Byte) = 0x03)) :=
  ⟨rfl, by decide, rfl, by decide⟩

/-- Each header position with the other position's byte. -/
theorem witness_WrongHeaderByteAbortsFrame :
    (two 8 (.inFrame 0 false 0 0xFFFF) []).decs[0]? = some ⟨.inFrame 0 false 0 0xFFFF, []⟩ ∧
    (((0 : Fin 3) = 0 ∧ (0x03 : Byte) ≠ 0xFF) ∨ ((0 : Fin 3) = 1 ∧ (0x03 : Byte) ≠ 0x03)) ∧
    (two 8 (.inFrame 1 false 0 0x00FF) []).decs[0]? = some ⟨.inFrame 1 false 0 0x00FF, []⟩ ∧
    (((1 : Fin 3) = 0 ∧ (0xFF : Byte) ≠ 0xFF) ∨ ((1 : Fin 3) = 1 ∧ (0xFF : Byte) ≠ 0x03)) :=
  ⟨rfl, by decide, rfl, by decide⟩

/-- The last free slot. -/
theorem witness_ResolvedByteIsStored :
    (two 8 (.inFrame 2 false 7 0x1234) []).decs[0]? = some ⟨.inFrame 2 false 7 0x1234, []⟩ ∧
    7 < (two 8 (.inFrame 2 false 7 0x1234) []).params.decCap := ⟨rfl, by decide⟩

/-- A full buffer, and capacity 0. -/
theorem witness_FullBufferAbortsFrame :
    (two 8 (.inFrame 2 false 8 0x1234) []).decs[0]? = some ⟨.inFrame 2 false 8 0x1234, []⟩ ∧
    8 = (two 8 (.inFrame 2 false 8 0x1234) []).params.decCap ∧
    (two 0 (.inFrame 2 false 0 0x3DE3) []).decs[0]? = some ⟨.inFrame 2 false 0 0x3DE3, []⟩ ∧
    0 = (two 0 (.inFrame 2 false 0 0x3DE3) []).params.decCap := ⟨rfl, rfl, rfl, rfl⟩

theorem witness_DecByteTakesItsMatchingRow :
    s0.decs[0]? = some ⟨.idle, []⟩ ∧
    (two 8 (.inFrame 2 false 8 0x1234) []).decs[0]? = some ⟨.inFrame 2 false 8 0x1234, []⟩ := ⟨rfl, rfl⟩

/-- One byte for each of the five events (OVERSIZE with `size = C`, BAD_HEADER with the byte of the other header position)
and one for each row without an event. -/
theorem witness_AtMostOneEventPerByte :
    ∀ p ∈ ([(.inFrame 2 true 5 0x1234, 0x7E), (.inFrame 2 false 4 0xF0B8, 0x7E), (.inFrame 2 false 4 0xE131, 0x7E),
        (.inFrame 0 false 0 0xFFFF, 0x03), (.inFrame 1 false 0 0x00FF, 0xFF), (.inFrame 2 false 8 0x1234, 0x41),
        (.idle, 0x7E), (.idle, 0x7D), (.inFrame 2 false 3 0xF0B8, 0x7E), (.inFrame 2 false 8 0x1234, 0x7D),
        (.inFrame 0 true 0 0xFFFF, 0xDF), (.inFrame 1 false 0 0x00FF, 0x03), (.inFrame 2 false 7 0x1234, 0x41)] :
        List (Ctl × Byte)),
      (two 8 p.1 []).decs[0]? = some ⟨p.1, []⟩ ∧ ctlInv (two 8 p.1 []).params.decCap p.1 ∧
        ∃ t, exec (.decByte 0 p.2) (two 8 p.1 []) = .next t := by
  intro p hp
  refine ⟨rfl, ?_, _, rfl⟩
  simp only [List.mem_cons, List.not_mem_nil, or_false] at hp
  rcases hp with rfl | rfl | rfl | rfl | rfl | rfl | rfl | rfl | rfl | rfl | rfl | rfl | rfl <;>
    simp [ctlInv, two, State.powerUp]

/-- The last of the two instances. -/
theorem witness_DecProcessIsItsExpansion : 1 < nDec s0 := by decide

theorem witness_ChunkBoundaryIndependence : 1 < nDec s0 := by decide

/-- The invariant holds with a good frame received into a buffer that is exactly full. -/
theorem goodFrame_inv : goodFrame.Inv := by
  refine ⟨?_, rfl, by intro p hp; exact nomatch hp⟩
  have h0 : decoderInv 4 ⟨.inFrame 2 false 4 0xF0B8, image [0x41, 0x42, 0xC0, 0xE8]⟩ := by
    refine ⟨by simp [ctlInv], ⟨by decide, ?_⟩, [0x41, 0x42, 0xC0, 0xE8], rfl, ?_, by decide +kernel⟩
    · intro a ha
      have : image [0x41, 0x42, 0xC0, 0xE8] = [(0, 0x41), (1, 0x42), (2, 0xC0), (3, 0xE8)] := by decide
      simp only [this, memRead, assocFind]
      repeat rw [if_neg (by omega)]
    · intro i hi
      have : i < 4 := hi
      interval_cases i <;> decide
  have h1 : decoderInv 4 ⟨.idle, []⟩ := ⟨trivial, ⟨rfl, fun _ _ => rfl⟩, trivial⟩
  intro x hx
  have : x ∈ ([⟨.inFrame 2 false 4 0xF0B8, image [0x41, 0x42, 0xC0, 0xE8]⟩, ⟨.idle, []⟩] : List Decoder) := hx
  simp only [List.mem_cons, List.not_mem_nil, or_false] at this
  rcases this with rfl | rfl
  · exact h0
  · exact h1

theorem goodFrameClosing_inv : goodFrameClosing.Inv := goodFrame_inv

theorem witness_DeliveredLengthBounds : goodFrameClosing.Inv ∧ ∃ t, step goodFrameClosing = .next t :=
  ⟨goodFrameClosing_inv, _, rfl⟩

/-- Both clauses: the closing flag as DEC_BYTE, and as a chunk that delivers. -/
theorem witness_DeliveredFramesPassTheChecksum :
    goodFrame.Inv ∧ (∀ e chunk, Instr.decByte 0 0x7E ≠ .decProcess e chunk) ∧
    (∃ t, exec (.decByte 0 0x7E) goodFrame = .next t ∧
      t.outputs = goodFrame.outputs ++ [.event (.frameReady 0 2 [0x41, 0x42])]) ∧
    ∃ t, exec (.decProcess 0 [0x7E, 0x41]) goodFrame = .next t ∧
      Output.event (.frameReady 0 2 [0x41, 0x42]) ∈ t.outputs :=
  ⟨goodFrame_inv, nofun, ⟨feedByte 0 goodFrame 0x7E, rfl, by decide +kernel⟩,
    ⟨feedChunk 0 goodFrame [0x7E, 0x41], rfl, by decide +kernel⟩⟩

/-- The step of those two witnesses does deliver a payload, of the largest length capacity 4 allows. -/
theorem witness_delivers : outs (step goodFrameClosing) = some [.event (.frameReady 0 2 [0x41, 0x42])] := by
  decide +kernel

theorem witness_DeliveredContentIsTheStoredBytes :
    goodFrame.Inv ∧ goodFrame.decs[0]? = some ⟨.inFrame 2 false 4 0xF0B8, image [0x41, 0x42, 0xC0, 0xE8]⟩ ∧ 4 ≤ 4 ∧
    ∃ t, exec (.decByte 0 0x7E) goodFrame = .next t :=
  ⟨goodFrame_inv, rfl, by decide, _, rfl⟩

/-- From Idle, and from a frame in progress without a pending escape. -/
theorem witness_EncodedFrameRoundTrip :
    (s0.decs[0]? = some ⟨.idle, []⟩) ∧
    ∃ hdr size fcs, goodFrame.decs[0]? = some ⟨.inFrame hdr false size fcs, image [0x41, 0x42, 0xC0, 0xE8]⟩ :=
  ⟨rfl, 2, 4, 0xF0B8, rfl⟩

/-- Its three outcomes occur: `n + 2 = C + 1`, `n + 2 = C`, `n = 1` (V-DS-1, V-DS-12 and P4 scaled to `C = 4`). -/
theorem witness_round_trip_outcomes :
    outs (exec (.decProcess 0 (frameOf [0x41, 0x42, 0x43])) (two 4 .idle [])) = some [.event (.diag 0 .oversize)] ∧
    outs (exec (.decProcess 0 (frameOf [0x41, 0x42])) (two 4 .idle [])) = some [.event (.frameReady 0 2 [0x41, 0x42])] ∧
    outs (exec (.decProcess 0 (frameOf [0x41])) (two 4 .idle [])) = some [] := by decide +kernel

/-- The garbage of V-DS-15, with the smallest payload and `C = n + 2`; and one byte of garbage for the second clause. -/
theorem witness_ResynchronisationAfterGarbage :
    ((two 4 .idle []).decs[0]? = some ⟨.idle, []⟩ ∧ 0x7E ∉ ([0xFF, 0x03, 0x11, 0x22, 0x33, 0x44] : List Byte) ∧
      2 ≤ [(0x41 : Byte), 0x42].length ∧ [(0x41 : Byte), 0x42].length + 2 ≤ (two 4 .idle []).params.decCap ∧
      ∃ t1 y, exec (.decProcess 0 (0x7E :: [0xFF, 0x03, 0x11, 0x22, 0x33, 0x44])) (two 4 .idle []) = .next t1 ∧
        t1.decs[0]? = some y ∧ escFlag? y.ctl ≠ some true ∧
        ∀ hdr size, 4 ≤ size → y.ctl ≠ .inFrame hdr false size 0xF0B8) ∧
    ((two 4 .idle []).decs[0]? = some ⟨.idle, []⟩ ∧ 0x7E ∉ ([0x11] : List Byte) ∧ 0x7D ∉ ([0x11] : List Byte) ∧
      ∃ t1 y, exec (.decProcess 0 (0x7E :: [0x11])) (two 4 .idle []) = .next t1 ∧ t1.decs[0]? = some y) := by
  refine ⟨⟨rfl, by decide, by decide, by decide, feedChunk 0 (two 4 .idle []) (0x7E :: [0xFF, 0x03, 0x11, 0x22, 0x33, 0x44]),
    ⟨.inFrame 2 false 4 0x19E5, image [0x11, 0x22, 0x33, 0x44]⟩, rfl, by decide +kernel, by decide, ?_⟩,
    ⟨rfl, by decide, by decide, _, ⟨.idle, []⟩, rfl, by decide +kernel⟩⟩
  intro hdr size _ h
  have : (0x19E5 : Word) = 0xF0B8 := by injection h
  exact absurd this (by decide)

/-- Each clause with the byte next to the expected one, plain and as a tolerated escape, and some bytes after it; `7D 7D`. -/
theorem witness_BadHeaderFrameIsRejected :
    s0.decs[0]? = some ⟨.idle, []⟩ ∧ (wireForm [0xFE] 0xFE ∧ (0xFE : Byte) ≠ 0xFF) ∧
    (wireForm [0x7D, 0xDE] 0xFE ∧ wireForm [0x7D, 0x7D] 0x5D) ∧ (wireForm [0xFF] 0xFF ∧ wireForm [0x7D, 0xDF] 0xFF) ∧
    (wireForm [0x02] 0x02 ∧ wireForm [0x7D, 0x22] 0x02 ∧ (0x02 : Byte) ≠ 0x03) ∧ 0x7E ∉ ([0x41, 0x7D] : List Byte) :=
  ⟨rfl, ⟨.inl ⟨_, rfl, by decide⟩, by decide⟩, ⟨.inr ⟨_, rfl, by decide⟩, .inr ⟨_, rfl, by decide⟩⟩,
    ⟨.inl ⟨_, rfl, by decide⟩, .inr ⟨_, rfl, by decide⟩⟩,
    ⟨.inl ⟨_, rfl, by decide⟩, .inr ⟨_, rfl, by decide⟩, by decide⟩, by decide⟩

theorem witness_TwoFlagsAlwaysResynchronise :
    (two 8 (.inFrame 2 true 5 0x1234) []).decs[0]? = some ⟨.inFrame 2 true 5 0x1234, []⟩ := rfl

/-- Two states whose buffers differ. -/
theorem witness_DecoderNeverReadsItsBuffer :
    (two 4 .idle []).params = (two 4 .idle [(0, 0x41)]).params ∧ (two 4 .idle []).decs[0]? = some ⟨.idle, []⟩ ∧
    (two 4 .idle [(0, 0x41)]).decs[0]? = some ⟨.idle, [(0, 0x41)]⟩ := ⟨rfl, rfl, rfl⟩

/-- Two bytes after a delivered frame. -/
theorem witness_DeliveredPayloadSurvivesTwoBytes :
    (two 4 freshFrame (image [0x41, 0x42])).decs[0]? = some ⟨.inFrame 0 false 0 0xFFFF, image [0x41, 0x42]⟩ ∧
    [(0xFF : Byte), 0x03].length ≤ 2 ∧
    ∃ t y, exec (.decProcess 0 [0xFF, 0x03]) (two 4 freshFrame (image [0x41, 0x42])) = .next t ∧ t.decs[0]? = some y :=
  ⟨rfl, by decide, _, _, rfl, rfl⟩

/-- A storing byte and the offsets beside it; and each of the four cases that write nothing. -/
theorem witness_DecByteMemoryFrame :
    (∃ t, (two 8 (.inFrame 2 false 7 0x1234) []).decs[0]? = some ⟨.inFrame 2 false 7 0x1234, []⟩ ∧
      exec (.decByte 0 0x41) (two 8 (.inFrame 2 false 7 0x1234) []) = .next t) ∧
    (∀ hdr esc size fcs, Ctl.inFrame 2 false 7 0x1234 = .inFrame hdr esc size fcs → ¬(0 = 0 ∧ 6 = size ∧ size < 8)) ∧
    (∃ t, goodFrame.decs[0]? = some ⟨.inFrame 2 false 4 0xF0B8, image [0x41, 0x42, 0xC0, 0xE8]⟩ ∧
      exec (.decByte 0 0x7E) goodFrame = .next t) ∧
    (∃ t, s0.decs[0]? = some ⟨.idle, []⟩ ∧ exec (.decByte 0 0x41) s0 = .next t) ∧
    (∃ t, goodFrame.decs[0]? = some ⟨.inFrame 2 false 4 0xF0B8, image [0x41, 0x42, 0xC0, 0xE8]⟩ ∧
      escFlag? (.inFrame 2 false 4 0xF0B8) = some false ∧ exec (.decByte 0 0x7D) goodFrame = .next t) ∧
    (∃ t, (two 8 (.inFrame 1 false 0 0x00FF) []).decs[0]? = some ⟨.inFrame 1 false 0 0x00FF, []⟩ ∧ (1 : Fin 3) < 2 ∧
      exec (.decByte 0 0x03) (two 8 (.inFrame 1 false 0 0x00FF) []) = .next t) := by
  refine ⟨⟨_, rfl, rfl⟩, ?_, ⟨_, rfl, rfl⟩, ⟨_, rfl, rfl⟩, ⟨_, rfl, rfl, rfl⟩, ⟨_, rfl, by decide, rfl⟩⟩
  intro hdr esc size fcs h
  cases h
  decide

theorem witness_DecoderOperationsTouchOnlyTheirInstance :
    decoderOf (.decProcess 0 [0x7E, 0x41]) = some 0 ∧ 1 ≠ 0 ∧ ∃ t, exec (.decProcess 0 [0x7E, 0x41]) s0 = .next t :=
  ⟨rfl, by decide, _, rfl⟩

/-- Two states that differ in the other instance and in the faults. -/
theorem witness_DecoderOperationsReadOnlyTheirInstance :
    decoderOf (.decByte 0 0x7E) = some 0 ∧
    s0.params = { s0 with decs := [⟨.idle, []⟩, ⟨freshFrame, []⟩], faults := [.encOverflow 2 11] }.params ∧
    s0.decs[0]? = ([⟨.idle, []⟩, ⟨freshFrame, []⟩] : List Decoder)[0]? ∧ ∃ t1, exec (.decByte 0 0x7E) s0 = .next t1 :=
  ⟨rfl, rfl, rfl, _, rfl⟩

/-- Two instances, and an instance beside the encoder. -/
theorem witness_InterleavingOrderDoesNotMatter :
    (decoderOf (.decByte 0 0x7E) = some 0 ∧ decoderOf (.decByte 1 0x7E) ≠ some 0 ∧ ∃ t1 u1 t2 u2,
      exec (.decByte 0 0x7E) s0 = .next t1 ∧ exec (.decByte 1 0x7E) t1 = .next u1 ∧
      exec (.decByte 1 0x7E) s0 = .next t2 ∧ exec (.decByte 0 0x7E) t2 = .next u2) ∧
    (decoderOf (.encProcess [0x41] 10 0) ≠ some 0 ∧ ∃ t1 u1 t2 u2,
      exec (.decByte 0 0x7E) s0 = .next t1 ∧ exec (.encProcess [0x41] 10 0) t1 = .next u1 ∧
      exec (.encProcess [0x41] 10 0) s0 = .next t2 ∧ exec (.decByte 0 0x7E) t2 = .next u2) :=
  ⟨⟨rfl, by decide, _, _, _, _, rfl, rfl, rfl, rfl⟩, ⟨by decide, _, _, _, _, rfl, rfl, rfl, rfl⟩⟩

theorem witness_ResetPutsInstanceInIdle :
    15 < 16 ∧ (two 8 (.inFrame 2 true 5 0x1234) []).decs[0]? = some ⟨.inFrame 2 true 5 0x1234, []⟩ ∧
    (∃ t, exec (.reset 0) (two 8 (.inFrame 2 true 5 0x1234) []) = .next t) ∧
    (State.powerUp 1 { decCap := 0, encMaxN := none }).decs[0]? = some ⟨.idle, []⟩ :=
  ⟨by decide, rfl, ⟨_, rfl⟩, rfl⟩

theorem witness_StateAfterReset : 0 < 1 := by decide

/-- One word for each case; `d = N_DEC`. -/
theorem witness_WordsThatSpellNothingAreRefused :
    (0x0FFFFFFF : CmdWord).extractLsb' 28 4 = 0 ∧ 7 ≤ ((0x70000000 : CmdWord).extractLsb' 28 4).toNat ∧
    7 ≤ ((0xFFFFFFFF : CmdWord).extractLsb' 28 4).toNat ∧
    ((0x10000100 : CmdWord).extractLsb' 28 4 = 1 ∧ (0x10000100 : CmdWord).extractLsb' 8 20 ≠ 0) ∧
    ((0x21000000 : CmdWord).extractLsb' 28 4 = 2 ∧ (0x21000000 : CmdWord).extractLsb' 24 4 ≠ 0) ∧
    ((0x40800000 : CmdWord).extractLsb' 28 4 = 4 ∧ (0x40800000 : CmdWord).extractLsb' 8 16 ≠ 0) ∧
    ((0x60000001 : CmdWord).extractLsb' 28 4 = 6 ∧ (0x60000001 : CmdWord).extractLsb' 0 24 ≠ 0) ∧
    { s0 with pending := [.packed 0x60000001] }.pending = .packed 0x60000001 :: [] ∧
    decoderOf (.decByte 2 0x7E) = some 2 ∧ nDec s0 ≤ 2 := by
  refine ⟨?_, ?_, ?_, ?_, ?_, ?_, ?_, ?_, ?_, ?_⟩ <;> decide

/-- A row in its class, a row outside it, an ill-formed row, and the two bytes STUFF_PASS refuses. -/
theorem witness_RowsAreRefusedOutsideTheirClass :
    (decoderOf (.decIdleFlag 0) = some 0 ∧ s0.decs[0]? = some ⟨.idle, []⟩ ∧ (∀ b, Instr.decIdleFlag 0 ≠ .decByte 0 b) ∧
      (∀ chunk, Instr.decIdleFlag 0 ≠ .decProcess 0 chunk) ∧ Instr.decIdleFlag 0 ≠ .reset 0 ∧
      exec (.decIdleFlag 0) s0 ≠ .refused .rowNotMatched) ∧
    (decoderOf (.decStore 0 0x41) = some 0 ∧ (∀ b, Instr.decStore 0 0x41 ≠ .decByte 0 b) ∧
      (∀ chunk, Instr.decStore 0 0x41 ≠ .decProcess 0 chunk) ∧ Instr.decStore 0 0x41 ≠ .reset 0 ∧
      exec (.decStore 0 0x41) s0 = .refused .rowNotMatched) ∧
    exec (.decIdleOther 0 0x7E) s0 = .refused .rowNotMatched ∧
    ((0x7D : Byte) = 0x7D ∨ (0x7D : Byte) = 0x7E) ∧ ((0x7E : Byte) = 0x7D ∨ (0x7E : Byte) = 0x7E) :=
  ⟨⟨rfl, rfl, nofun, nofun, nofun, nofun⟩, ⟨rfl, nofun, nofun, nofun, rfl⟩, rfl, by decide, by decide⟩

theorem witness_WordsThatSpellAnOperationRun :
    { s0 with pending := [.packed 0x1000007D] }.pending = .packed 0x1000007D :: [] ∧
    ((0x1000007D : CmdWord).extractLsb' 28 4 = 1 ∧ (0x1000007D : CmdWord).extractLsb' 8 20 = 0) ∧
    ((0x203DE341 : CmdWord).extractLsb' 28 4 = 2 ∧ (0x203DE341 : CmdWord).extractLsb' 24 4 = 0) ∧
    ((0x4F00007E : CmdWord).extractLsb' 28 4 = 4 ∧ (0x4F00007E : CmdWord).extractLsb' 8 16 = 0) ∧
    ((0x65000000 : CmdWord).extractLsb' 28 4 = 6 ∧ (0x65000000 : CmdWord).extractLsb' 0 24 = 0) := by
  refine ⟨?_, ?_, ?_, ?_, ?_⟩ <;> decide

/-- A payload at the limit with `S = 2n + 7`, and a step from a state with a recorded fault. -/
theorem witness_OverflowStaysRecorded :
    (∀ m, limited.params.encMaxN = some m → [(0x41 : Byte), 0x42].length ≤ m) ∧
    11 < 2 * [(0x41 : Byte), 0x42].length + 8 ∧
    (∃ t, step { s0 with faults := [.encOverflow 2 11], pending := [.wire 0 0x7E] } = .next t) ∧
    goodRun { s0 with faults := [.encOverflow 2 11], pending := [.wire 0 0x7E] } = false :=
  ⟨fun m h => by cases h; decide, by decide, ⟨_, rfl⟩, rfl⟩

theorem witness_DiagnosticsAreNotFaults :
    ∃ t, exec (.encProcess [0x41, 0x42] 11 0) s0 = .next t ∧ t.faults ≠ s0.faults :=
  ⟨recordFault s0 (.encOverflow 2 11), rfl, by decide⟩

theorem witness_PackedEncodingAndDecodingAgree :
    encodeWord (.decByte 15 0xB0) = some 0x4F0000B0 ∧ decodeWord 0x4F0000B0 = .ok (.decByte 15 0xB0) := ⟨rfl, rfl⟩

/-- A word, a wire byte and a resolved byte. -/
theorem witness_CommandsDecodeToTheInstructionTheyEncode :
    ((Instr.decByte 0 0x41).wellFormed = true ∧ ∃ t, exec (.decByte 0 0x41) s0 = .next t) ∧
    ((Instr.decIdleOther 0 0x7D).wellFormed = true ∧ ∃ t, exec (.decIdleOther 0 0x7D) s0 = .next t) ∧
    ((Instr.decHdrMatch 0 0xFF).wellFormed = true ∧ ∃ t, exec (.decHdrMatch 0 0xFF) (two 8 freshFrame []) = .next t) :=
  ⟨⟨rfl, _, rfl⟩, ⟨rfl, _, rfl⟩, ⟨rfl, _, rfl⟩⟩

theorem witness_DecodedInstructionsAreWellFormed :
    decode s0 (.wire 0 0x7D) = .ok (.decIdleOther 0 0x7D) ∧ decode s0 (.stuffer 0x7C) = .ok (.stuffPass 0x7C) :=
  ⟨rfl, rfl⟩

/-- A command that spells an instruction, one that spells none, an empty queue, and a table word. -/
theorem witness_StepRunsTheDecodedInstruction :
    ({ s0 with pending := [.wire 0 0x7E] }.pending = .wire 0 0x7E :: [] ∧ decode s0 (.wire 0 0x7E) = .ok (.decIdleFlag 0)) ∧
    ({ s0 with pending := [.wire 2 0x7E] }.pending = .wire 2 0x7E :: [] ∧
      decode s0 (.wire 2 0x7E) = .error (.noSuchDecoder 2)) ∧
    s0.pending = [] ∧ decodeTableWord 32 0x1000007D = some (.tblRead 0x7D) :=
  ⟨⟨rfl, rfl⟩, ⟨rfl, rfl⟩, rfl, rfl⟩

theorem witness_StepKeepsTheInvariant : goodFrameClosing.Inv ∧ ∃ t, step goodFrameClosing = .next t :=
  ⟨goodFrameClosing_inv, _, rfl⟩

theorem witness_ParametersAndRecordNeverChange : ∃ t, step goodFrameClosing = .next t := ⟨_, rfl⟩

/-- An operation that is not ENC_PROCESS, and one that names no instance. -/
theorem witness_UnitsShareNoWritableState :
    (∃ t, exec (.decByte 0 0x7E) s0 = .next t ∧ ∀ payload size out, Instr.decByte 0 0x7E ≠ .encProcess payload size out) ∧
    ∃ t, exec (.encProcess [0x41] 10 0) s0 = .next t ∧ decoderOf (.encProcess [0x41] 10 0) = none :=
  ⟨⟨_, rfl, fun _ _ _ h => nomatch h⟩, ⟨_, rfl, rfl⟩⟩

end Sys2Proof.Tests
end

/-! PROOFS, family 30_encoding.md. First the rules that later proofs share: what `step` does with the next command, what
`decodeWord` answers for each OPSEL, and that every decoder operation runs under its instance operand. Then the statements. -/

namespace Sys2Proof.Machine

/-! ## The step on the next command -/

/-- A command that spells no operation has no step (60_exceptions.md R175). -/
theorem step_of_decode_error {s : State} {c : Cmd} {cs : List Cmd} {r : Refusal} (hp : s.pending = c :: cs)
    (hd : decode { s with pending := cs } c = .error r) : step s = .refused r := by
  simp [step, fetch, hp, hd]

/-- A command that spells an instruction runs it, on the state with the command taken from the queue. -/
theorem step_of_decode_ok {s : State} {c : Cmd} {cs : List Cmd} {i : Instr} (hp : s.pending = c :: cs)
    (hd : decode { s with pending := cs } c = .ok i) : step s = exec i { s with pending := cs } := by
  simp [step, fetch, hp, hd]

/-! ## The packed word by its OPSEL (30_encoding.md R67, R68) -/

theorem decodeWord_of_opsel_one {w : CmdWord} (h : opselField w = 1) :
    decodeWord w = ifZero 1 (instField w == 0 && f16Field w == 0) (.tblRead (b8Field w)) := by
  simp [decodeWord, h]

theorem decodeWord_of_opsel_two {w : CmdWord} (h : opselField w = 2) :
    decodeWord w = ifZero 2 (instField w == 0) (.fcsUpdate (f16Field w) (b8Field w)) := by
  simp [decodeWord, h]

theorem decodeWord_of_opsel_four {w : CmdWord} (h : opselField w = 4) :
    decodeWord w = ifZero 4 (f16Field w == 0) (.decByte (instField w).toNat (b8Field w)) := by
  simp [decodeWord, h]

theorem decodeWord_of_opsel_six {w : CmdWord} (h : opselField w = 6) :
    decodeWord w = ifZero 6 (f16Field w == 0 && b8Field w == 0) (.reset (instField w).toNat) := by
  simp [decodeWord, h]

/-- Every reserved OPSEL decodes to an instruction that is refused under that OPSEL's number in every state. -/
theorem decodeWord_of_opsel_reserved {w : CmdWord} (h : opselField w = 0 ∨ 7 ≤ (opselField w).toNat) :
    ∃ i, decodeWord w = .ok i ∧ ∀ s, exec i s = .refused (.reservedOpsel (opselField w).toNat) := by
  have hlt : (opselField w).toNat < 16 := (opselField w).isLt
  have hn : (opselField w).toNat = 0 ∨ 7 ≤ (opselField w).toNat := h.imp_left fun h0 => by rw [h0]; rfl
  unfold decodeWord
  generalize (opselField w).toNat = n at hlt hn ⊢
  obtain rfl | h7 := hn
  · exact ⟨_, rfl, fun _ => rfl⟩
  · interval_cases n <;> exact ⟨_, rfl, fun _ => rfl⟩

/-! ## The must-be-zero fields (R68) -/

/-- Bits [27:8], the must-be-zero field of OPSEL 1, are INST and F16. -/
theorem instField_append_f16Field (w : CmdWord) : instField w ++ f16Field w = w.extractLsb' 8 20 :=
  BitVec.extractLsb'_append_extractLsb'_eq_extractLsb' rfl

/-- Bits [23:0], the must-be-zero field of OPSEL 6, are F16 and B8. -/
theorem f16Field_append_b8Field (w : CmdWord) : f16Field w ++ b8Field w = w.extractLsb' 0 24 :=
  BitVec.extractLsb'_append_extractLsb'_eq_extractLsb' rfl

/-- The decoder's test of two adjacent fields fails where the joined field is not zero. -/
theorem both_zero_eq_false {m n : Nat} {x : BitVec m} {y : BitVec n} (h : x ++ y ≠ 0) :
    (x == 0 && y == 0) = false := by
  refine Bool.eq_false_iff.2 fun hz => h ?_
  obtain ⟨hx, hy⟩ : x = 0 ∧ y = 0 := by simpa using hz
  simp [hx, hy]

/-- A must-be-zero field that is not zero is the decoder's refusal, for each OPSEL that has such a field. -/
theorem decodeWord_of_field_ne_zero {w : CmdWord}
    (h : (opselField w = 1 ∧ w.extractLsb' 8 20 ≠ 0) ∨ (opselField w = 2 ∧ instField w ≠ 0) ∨
      (opselField w = 4 ∧ f16Field w ≠ 0) ∨ (opselField w = 6 ∧ w.extractLsb' 0 24 ≠ 0)) :
    decodeWord w = .error (.mustBeZero (opselField w).toNat) := by
  rcases h with ⟨ho, hz⟩ | ⟨ho, hz⟩ | ⟨ho, hz⟩ | ⟨ho, hz⟩
  · rw [← instField_append_f16Field] at hz
    rw [decodeWord_of_opsel_one ho, both_zero_eq_false hz, ho]
    rfl
  · rw [decodeWord_of_opsel_two ho, beq_false_of_ne hz, ho]
    rfl
  · rw [decodeWord_of_opsel_four ho, beq_false_of_ne hz, ho]
    rfl
  · rw [← f16Field_append_b8Field] at hz
    rw [decodeWord_of_opsel_six ho, both_zero_eq_false hz, ho]
    rfl

/-! ## The instance operand of an instruction -/

/-- An instruction that names instance `d` runs a continuation on that instance, whichever operation it is. -/
theorem exec_eq_withDecoder {i : Instr} {d : Nat} (hd : decoderOf i = some d) (s : State) :
    ∃ k, exec i s = withDecoder d s k := by
  cases i <;> simp only [decoderOf, Option.some.injEq, reduceCtorEq] at hd <;> subst hd <;> exact ⟨_, rfl⟩

/-- An instance `d >= N_DEC` is refused (R68). -/
theorem exec_of_nDec_le {i : Instr} {d : Nat} {s : State} (hd : decoderOf i = some d) (h : nDec s ≤ d) :
    exec i s = .refused (.noSuchDecoder d) := by
  obtain ⟨k, hk⟩ := exec_eq_withDecoder hd s
  rw [hk, withDecoder_none k h]

/-! ## O47 -/

/-- A packed word that spells no operation has no step: a reserved OPSEL decodes to a refused instruction, and a
must-be-zero field that is not zero does not decode. -/
theorem step_of_packed_spells_nothing {w : CmdWord} {s : State} {cs : List Cmd} (hp : s.pending = .packed w :: cs)
    (h : (opselField w = 0 ∨ 7 ≤ (opselField w).toNat) ∨
      (opselField w = 1 ∧ w.extractLsb' 8 20 ≠ 0) ∨ (opselField w = 2 ∧ instField w ≠ 0) ∨
      (opselField w = 4 ∧ f16Field w ≠ 0) ∨ (opselField w = 6 ∧ w.extractLsb' 0 24 ≠ 0)) :
    ∃ r, step s = .refused r := by
  obtain hr | hz := h
  · obtain ⟨i, hi, hx⟩ := decodeWord_of_opsel_reserved hr
    exact ⟨_, (step_of_decode_ok hp hi).trans (hx _)⟩
  · exact ⟨_, step_of_decode_error hp (decodeWord_of_field_ne_zero hz)⟩

/-- Settles O47: by the decoder's answer for packed words, the instance operand for every operation that names one, and
the meaning of the ten reserved instructions, whose ten equations hold by definition. -/
theorem wordsThatSpellNothingAreRefused : Obligations.WordsThatSpellNothingAreRefused := by
  unfold Obligations.WordsThatSpellNothingAreRefused
  refine ⟨fun w s cs hp h => step_of_packed_spells_nothing hp (or_assoc.2 h), fun _ _ _ => exec_of_nDec_le, fun _ _ => ?_⟩
  exact ⟨rfl, rfl, rfl, rfl, rfl, rfl, rfl, rfl, rfl, rfl⟩

end Sys2Proof.Machine

/-! PROOFS, family 40_fcs16.md. The fold is linear over XOR and a checksum folded over its own two bytes leaves zero, so the
residue depends only on the mask the two bytes are sent with. Then the two instructions of the unit. -/

namespace Sys2Proof.Machine

/-! ## The two bytes of a checksum (30_encoding.md R62) -/

theorem loByte_xor (x y : Word) : loByte (x ^^^ y) = loByte x ^^^ loByte y := BitVec.extractLsb'_xor

theorem hiByte_xor (x y : Word) : hiByte (x ^^^ y) = hiByte x ^^^ hiByte y := BitVec.extractLsb'_xor

/-- Shifting the low byte out brings the high byte down. -/
theorem loByte_ushiftRight_eight (x : Word) : loByte (x >>> 8) = hiByte x := by
  apply BitVec.eq_of_getLsbD_eq
  intro j hj
  simp [loByte, hiByte]

/-! ## The table and the fold (40_fcs16.md R80, R83) -/

/-- The table is linear over XOR (R82 (a)). -/
theorem fcsTable_xor (i j : Byte) : fcsTable (i ^^^ j) = fcsTable i ^^^ fcsTable j := by
  simp only [fcsTable, zext16, BitVec.setWidth_xor, fcsShifts_xor]

@[simp] theorem fcsTable_zero : fcsTable 0#8 = 0#16 := by decide

/-- The table index of the fold is the low byte of the checksum XOR the byte folded in. -/
theorem fcsUpdate_eq_loByte (f : Word) (b : Byte) : fcsUpdate f b = (f >>> 8) ^^^ fcsTable (loByte f ^^^ b) := by
  have hidx : ((f ^^^ zext16 b) &&& 0xFF).setWidth 8 = loByte f ^^^ b := by
    apply BitVec.eq_of_getLsbD_eq
    intro j hj
    interval_cases j <;> simp [zext16, loByte]
  rw [fcsUpdate, hidx]

/-- The fold is linear over XOR in the checksum and the byte together. -/
theorem fcsUpdate_xor (f g : Word) (b c : Byte) :
    fcsUpdate (f ^^^ g) (b ^^^ c) = fcsUpdate f b ^^^ fcsUpdate g c := by
  have hidx : loByte (f ^^^ g) ^^^ (b ^^^ c) = (loByte f ^^^ b) ^^^ (loByte g ^^^ c) := by
    rw [loByte_xor]; ac_rfl
  simp only [fcsUpdate_eq_loByte, hidx, fcsTable_xor, BitVec.ushiftRight_xor_distrib]
  ac_rfl

/-- Folding a checksum's own low byte only shifts it out. -/
theorem fcsUpdate_loByte_self (f : Word) : fcsUpdate f (loByte f) = f >>> 8 := by
  simp [fcsUpdate_eq_loByte]

/-! ## O7 -/

/-- A checksum folded over its own two bytes, low byte first, leaves zero. -/
theorem fcsFoldBytes_own_bytes (f : Word) : fcsFoldBytes f [loByte f, hiByte f] = 0#16 := by
  have hshift : f >>> 8 >>> 8 = 0#16 := by
    rw [← BitVec.shiftRight_add]
    exact BitVec.ushiftRight_eq_zero (Nat.le_refl 16)
  rw [fcsFoldBytes_cons, fcsUpdate_loByte_self, ← loByte_ushiftRight_eight, fcsFoldBytes_cons, fcsUpdate_loByte_self,
    fcsFoldBytes_nil, hshift]

/-- The residue: what a checksum folded over the two bytes of its XOR with a mask leaves depends on the mask only. -/
theorem fcsFoldBytes_masked_bytes (f m : Word) :
    fcsFoldBytes f [loByte (f ^^^ m), hiByte (f ^^^ m)] = fcsFoldBytes 0#16 [loByte m, hiByte m] := by
  calc fcsFoldBytes f [loByte (f ^^^ m), hiByte (f ^^^ m)]
      = fcsFoldBytes (f ^^^ 0#16) [loByte f ^^^ loByte m, hiByte f ^^^ hiByte m] := by
        rw [BitVec.xor_zero, loByte_xor, hiByte_xor]
    _ = fcsFoldBytes f [loByte f, hiByte f] ^^^ fcsFoldBytes 0#16 [loByte m, hiByte m] := by
        simp only [fcsFoldBytes_cons, fcsFoldBytes_nil, fcsUpdate_xor]
    _ = fcsFoldBytes 0#16 [loByte m, hiByte m] := by rw [fcsFoldBytes_own_bytes, BitVec.zero_xor]

/-- Settles O7: the residue of the mask 0xFFFF, whatever checksum the byte sequence has. -/
theorem fcsResidueLaw : Obligations.FcsResidueLaw := by
  unfold Obligations.FcsResidueLaw
  rintro bytes _ rfl
  have hres : fcsFoldBytes 0#16 [loByte 0xFFFF, hiByte 0xFFFF] = 0xF0B8 := by decide
  rw [List.foldl_append]
  exact (fcsFoldBytes_masked_bytes (bytes.foldl fcsUpdate 0xFFFF) 0xFFFF).trans hres

/-! ## O1, O2 -/

/-- The loop of R80 as an iterate of its one pass. -/
theorem fcsShifts_eq_iterate (n : Nat) (b : Word) : fcsShifts n b = fcsShift^[n] b := by
  induction n generalizing b with
  | zero => rfl
  | succ n ih => exact ih (fcsShift b)

theorem decodeWord_packWord_tblRead (i : Byte) : decodeWord (packWord 0x1 0 0 i) = .ok (.tblRead i) := by
  rw [decodeWord_of_opsel_one (opselField_packWord ..)]
  simp [ifZero]

theorem decodeWord_packWord_fcsUpdate (f : Word) (b : Byte) :
    decodeWord (packWord 0x2 0 f b) = .ok (.fcsUpdate f b) := by
  rw [decodeWord_of_opsel_two (opselField_packWord ..)]
  simp [ifZero]

theorem exec_tblRead (i : Byte) (s : State) : exec (.tblRead i) s = .next (emit s (.word (fcsTable i))) := rfl

theorem exec_fcsUpdate (f : Word) (b : Byte) (s : State) :
    exec (.fcsUpdate f b) s = .next (emit s (.word (fcsUpdate f b))) := rfl

/-- Settles O1: the decoder's answer for OPSEL 1, the meaning of TBL_READ at every index and at 0x80, and the generator's
loop as an iterate. -/
theorem tblReadReturnsTableEntry : Obligations.TblReadReturnsTableEntry := by
  unfold Obligations.TblReadReturnsTableEntry
  have h80 : fcsTable 0x80 = 0x8408 := by decide
  refine ⟨decodeWord_packWord_tblRead, exec_tblRead, fun s => ?_, fun i => fcsShifts_eq_iterate 8 (zext16 i)⟩
  rw [exec_tblRead, h80, emit]

/-- Settles O2: the decoder's answer for OPSEL 2, the meaning of FCS_UPDATE, the two corner cases by evaluating the fold, and
the fold of byte 1 twice from 0, which is not 0. -/
theorem fcsUpdateFoldsOneByte : Obligations.FcsUpdateFoldsOneByte := by
  unfold Obligations.FcsUpdateFoldsOneByte
  have hzero : fcsUpdate 0 0 = 0 := by decide
  have hones : fcsUpdate 0xFFFF 0xFF = 0x00FF := by decide
  refine ⟨decodeWord_packWord_fcsUpdate, exec_fcsUpdate, fun s => ?_, fun s => ?_, 0, 1, by decide⟩
  · rw [exec_fcsUpdate, hzero, emit]
  · rw [exec_fcsUpdate, hones, emit]

end Sys2Proof.Machine

/-! PROOFS, family 41_encoder.md. An ENC_PROCESS within its precondition has one next state, and what that state shows of the
caller's buffer is `frame(P)`, in which neither the old state nor the buffer occurs. Then the stuffer by its two classes. -/

namespace Sys2Proof.Machine

/-! ## ENC_PROCESS within its precondition (R102, R111) -/

@[simp] theorem encBuf_emit (s : State) (o : Output) (out : Nat) : encBuf (emit s o) out = encBuf s out := rfl

/-- The one next state of a completed ENC_PROCESS: the frame put into the caller's buffer, and its length handed over. -/
theorem exec_encProcess_next {payload : List Byte} {size out : Nat} {s t : State} (hsize : 2 * payload.length + 8 ≤ size)
    (h : exec (.encProcess payload size out) s = .next t) :
    t = emit (putEncOut s out (encPutAll { pos := 0, fcs := Config.fcsInit, out := encBuf s out } (frameOf payload)).out)
      (.length (frameOf payload).length) := by
  change execEncProcess payload size out s = .next t at h
  obtain ⟨_, he⟩ | ⟨_, hs, _⟩ | ⟨_, _, he⟩ := execEncProcess_cases payload size out s
  · rw [he] at h
    cases h
  · omega
  · rw [he] at h
    cases h
    rfl

theorem exec_encProcess_outputs {payload : List Byte} {size out : Nat} {s t : State}
    (hsize : 2 * payload.length + 8 ≤ size) (h : exec (.encProcess payload size out) s = .next t) :
    t.outputs = s.outputs ++ [.length (frameOf payload).length] := by
  simp [exec_encProcess_next hsize h]

/-- Below the length handed over, the caller's buffer holds `frame(P)`, whatever it held before. -/
theorem exec_encProcess_read {payload : List Byte} {size out : Nat} {s t : State}
    (hsize : 2 * payload.length + 8 ≤ size) (h : exec (.encProcess payload size out) s = .next t) {a : Nat}
    (ha : a < (frameOf payload).length) : encOutRead t out a = (frameOf payload)[a]? := by
  simp [exec_encProcess_next hsize h, encOutRead, encPutAll_read, ha]

/-- Within the precondition ENC_PROCESS touches neither the decoders nor the parameters, the faults and the queue. -/
theorem exec_encProcess_frame {payload : List Byte} {size out : Nat} {s t : State}
    (hsize : 2 * payload.length + 8 ≤ size) (h : exec (.encProcess payload size out) s = .next t) :
    t.decs = s.decs ∧ t.params = s.params ∧ t.faults = s.faults ∧ t.pending = s.pending := by
  simp [exec_encProcess_next hsize h]

/-! ## O14 -/

/-- Settles O14: both runs hand over the length of `frame(P)` and show its bytes, and `frame(P)` depends on the payload
alone. -/
theorem encoderIsStateless : Obligations.EncoderIsStateless := by
  unfold Obligations.EncoderIsStateless
  intro payload size1 size2 out1 out2 s1 s2 t1 t2 hsize1 hsize2 h1 h2
  refine ⟨⟨(frameOf payload).length, exec_encProcess_outputs hsize1 h1, exec_encProcess_outputs hsize2 h2, fun a ha => ?_⟩,
    exec_encProcess_frame hsize1 h1⟩
  rw [exec_encProcess_read hsize1 h1 ha, exec_encProcess_read hsize2 h2 ha, List.getElem?_eq_getElem ha]
  exact ⟨rfl, rfl⟩

/-! ## The stuffer by its two classes (R100) -/

theorem stuff_of_special {b : Byte} (h : b = 0x7D ∨ b = 0x7E) : stuff b = [0x7D, b ^^^ 0x20] := if_pos h

theorem stuff_of_plain {b : Byte} (h : ¬(b = 0x7D ∨ b = 0x7E)) : stuff b = [b] := if_neg h

/-- No stuffed byte is a flag: the two special bytes become `7D 5D` and `7D 5E`, and a plain byte is no flag itself. -/
theorem flag_not_mem_stuff (b : Byte) : 0x7E ∉ stuff b := by
  by_cases h : b = 0x7D ∨ b = 0x7E
  · rw [stuff_of_special h]
    obtain rfl | rfl := h <;> decide
  · rw [stuff_of_plain h, List.mem_singleton]
    exact fun hb => h (.inr hb.symm)

theorem length_stuff (b : Byte) : (stuff b).length = 1 ∨ (stuff b).length = 2 := by
  by_cases h : b = 0x7D ∨ b = 0x7E
  · exact .inr (by rw [stuff_of_special h]; rfl)
  · exact .inl (by rw [stuff_of_plain h]; rfl)

/-! ## O10 -/

/-- Settles O10: the two classes of `stuff`, and what each gives for the flag and the length. -/
theorem stuffedByteShape : Obligations.StuffedByteShape := by
  unfold Obligations.StuffedByteShape
  exact fun b => ⟨stuff_of_special, stuff_of_plain, flag_not_mem_stuff b, length_stuff b⟩

end Sys2Proof.Machine

/-! PROOFS, family 42_decoder.md. First what each row leaves in the state, which row DEC_BYTE takes, and that DEC_BYTE and the
row's own instruction complete alike. Each statement about a row is these three facts put together. -/

namespace Sys2Proof.Machine

/-! ## What a row leaves in the state (42_decoder.md R131 to R144) -/

/-- A byte without an event changes the instance and nothing else: the record grows by no entry. -/
theorem afterByte_silent (s : State) (d : Nat) (y : Decoder) :
    afterByte s d (y, none) = { s with decs := s.decs.set d y } := by
  simp [afterByte, emitEvents, putDecoder]

theorem afterByte_rowOpen (s : State) (d : Nat) (x : Decoder) :
    afterByte s d (rowOpen x) = { s with decs := s.decs.set d { x with ctl := .inFrame 0 false 0 0xFFFF } } :=
  afterByte_silent s d _

theorem afterByte_rowIgnore {s : State} {d : Nat} {x : Decoder} (hx : s.decs[d]? = some x) :
    afterByte s d (rowIgnore x) = s := by
  rw [rowIgnore, afterByte_silent, set_getElem?_self hx]

theorem afterByte_rowEscMark (s : State) (d : Nat) {x : Decoder} {hdr : Fin 3} {esc : Bool} {size : Nat} {fcs : Word}
    (hc : x.ctl = .inFrame hdr esc size fcs) :
    afterByte s d (rowEscMark x) = { s with decs := s.decs.set d { x with ctl := .inFrame hdr true size fcs } } := by
  rw [rowEscMark, hc, writeEsc, afterByte_silent]

/-! ## The row that DEC_BYTE takes (30_encoding.md R69, rows 1 to 4, 6 and 8) -/

section
variable {cap d : Nat} {x : Decoder} {hdr : Fin 3} {size : Nat} {fcs : Word}

theorem decodeByte_idle_flag (hc : x.ctl = .idle) : decodeByte cap d x 0x7E = rowOpen x := by
  simp [decodeByte, hc, Config.flag]

theorem decodeByte_idle_other {b : Byte} (hc : x.ctl = .idle) (hb : b ≠ 0x7E) : decodeByte cap d x b = rowIgnore x := by
  simp only [decodeByte, hc]
  exact if_neg hb

theorem decodeByte_escaped_flag (hc : x.ctl = .inFrame hdr true size fcs) :
    decodeByte cap d x 0x7E = rowAbort d x .escFlag := by
  simp [decodeByte, hc, Config.flag]

theorem decodeByte_close_short (hc : x.ctl = .inFrame hdr false size fcs) (hs : size < 4) :
    decodeByte cap d x 0x7E = rowOpen x := by
  simp [decodeByte, hc, Config.flag, Config.minSize, hs]

theorem decodeByte_close_badFcs (hc : x.ctl = .inFrame hdr false size fcs) (hs : 4 ≤ size) (hf : fcs ≠ 0xF0B8) :
    decodeByte cap d x 0x7E = rowBadFcs d x size fcs := by
  have hf' : fcs ≠ Config.fcsGood := hf
  simp [decodeByte, hc, Config.flag, Config.minSize, Nat.not_lt.2 hs, hf']

theorem decodeByte_escMark (hc : x.ctl = .inFrame hdr false size fcs) : decodeByte cap d x 0x7D = rowEscMark x := by
  simp [decodeByte, hc, Config.flag, Config.esc]

end

/-! ## DEC_BYTE, and the instruction of the row it takes -/

theorem exec_decByte_some {d : Nat} {s : State} {x : Decoder} (hx : s.decs[d]? = some x) (b : Byte) :
    exec (.decByte d b) s = .next (afterByte s d (decodeByte s.params.decCap d x b)) :=
  execDecByte_some hx b

/-- Where DEC_BYTE and a row have the same effect `r` on the instance, both instructions complete with it. -/
theorem exec_decByte_and_row {d : Nat} {b : Byte} {s : State} {x : Decoder} {i : Instr}
    {row : Decoder → Option (Decoder × Option Event)} {r : Decoder × Option Event} (hx : s.decs[d]? = some x)
    (hi : exec i s = onRow d s row) (hb : decodeByte s.params.decCap d x b = r) (hrow : row x = some r) :
    exec (.decByte d b) s = .next (afterByte s d r) ∧ exec i s = .next (afterByte s d r) :=
  ⟨hb ▸ exec_decByte_some hx b, hi.trans (onRow_some hx hrow)⟩

/-! ## DEC_PROCESS by its run over the chunk (R145) -/

/-- DEC_PROCESS completes with what the bytes of the chunk do to the instance alone. -/
theorem exec_decProcess_of_runBytes {d : Nat} {s : State} {x y : Decoder} {chunk : List Byte} {es : List Event}
    (hx : s.decs[d]? = some x) (h : runBytes s.params.decCap d x chunk = (y, es)) :
    exec (.decProcess d chunk) s =
      .next { s with decs := s.decs.set d y, outputs := s.outputs ++ es.map Output.event } := by
  refine (execDecProcess_some hx chunk).trans ?_
  rw [feedChunk_some hx, h]
  rfl

/-- In Idle a run of bytes without a flag is discarded (R132). -/
theorem runBytes_idle_of_no_flag {cap d : Nat} {x : Decoder} {bs : List Byte} (hc : x.ctl = .idle) (hbs : 0x7E ∉ bs) :
    runBytes cap d x bs = (x, []) := by
  induction bs with
  | nil => rfl
  | cons b bs ih =>
    obtain ⟨hb, hbs⟩ := not_or.1 (mt List.mem_cons.2 hbs)
    simp [runBytes, decodeByte_idle_other hc (Ne.symm hb), rowIgnore, ih hbs]

/-- `7D 7E` from Idle opens a frame: the escape marker is discarded and does not escape the flag (R132). -/
theorem runBytes_idle_esc_flag {cap d : Nat} {x : Decoder} (hc : x.ctl = .idle) :
    runBytes cap d x [0x7D, 0x7E] = ({ x with ctl := .inFrame 0 false 0 0xFFFF }, []) := by
  rw [runBytes, decodeByte_idle_other hc (by decide), rowIgnore, runBytes, decodeByte_idle_flag hc]
  rfl

/-- An escaped flag gives ESC_FLAG and Idle, and what follows it up to another flag is discarded (R133). -/
theorem runBytes_escaped_flag {cap d : Nat} {x : Decoder} {hdr : Fin 3} {size : Nat} {fcs : Word} {rest : List Byte}
    (hc : x.ctl = .inFrame hdr true size fcs) (hrest : 0x7E ∉ rest) :
    runBytes cap d x (0x7E :: rest) = ({ x with ctl := .idle }, [.diag d .escFlag]) := by
  have hidle : (rowAbort d x .escFlag).1.ctl = .idle := rfl
  rw [runBytes, decodeByte_escaped_flag hc, runBytes_idle_of_no_flag hidle hrest]
  rfl

/-- `7E 7D 7E` from Idle opens a frame, sets the escape and gives the frame up: the instance is as before. -/
theorem runBytes_idle_flag_esc_flag {cap d : Nat} {x : Decoder} (hc : x.ctl = .idle) :
    runBytes cap d x [0x7E, 0x7D, 0x7E] = (x, [.diag d .escFlag]) := by
  have hopen : (rowOpen x).1.ctl = .inFrame 0 false 0 0xFFFF := rfl
  have hmark : (rowEscMark (rowOpen x).1).1.ctl = .inFrame 0 true 0 0xFFFF := rfl
  rw [runBytes, decodeByte_idle_flag hc, runBytes, decodeByte_escMark hopen,
    runBytes_escaped_flag hmark List.not_mem_nil]
  simp [rowOpen, rowEscMark, ← hc]

/-! ## O15, O16, O17: a byte in Idle, and an escaped flag -/

/-- Settles O15: row 1 opens a fresh frame and hands over no event. -/
theorem idleFlagOpensFrame : Obligations.IdleFlagOpensFrame := by
  unfold Obligations.IdleFlagOpensFrame
  intro d s x hx hc
  rw [← afterByte_rowOpen]
  exact exec_decByte_and_row (i := .decIdleFlag d) hx rfl (decodeByte_idle_flag hc) (by simp only [hc])

/-- Settles O16: row 2 leaves the state as it is, so of `7D 7E` only the flag has an effect. -/
theorem idleIgnoresOtherBytes : Obligations.IdleIgnoresOtherBytes := by
  unfold Obligations.IdleIgnoresOtherBytes
  constructor
  · intro d b s x hx hc hb
    have hrow := exec_decByte_and_row (i := .decIdleOther d b) hx rfl (decodeByte_idle_other hc hb)
      (by simp only [hc]; exact if_neg hb)
    rwa [afterByte_rowIgnore hx] at hrow
  · intro d s x hx hc
    simpa using exec_decProcess_of_runBytes hx (runBytes_idle_esc_flag hc)

/-- Settles O17: row 3 with the discarded rest, and the run of `7E 7D 7E`, which puts the instance back as it was. -/
theorem escapedFlagAbortsFrame : Obligations.EscapedFlagAbortsFrame := by
  unfold Obligations.EscapedFlagAbortsFrame
  constructor
  · intro d s x hdr size fcs rest hx hc hrest t
    obtain ⟨hbyte, hrow⟩ := exec_decByte_and_row (i := .decEscFlag d) hx rfl (decodeByte_escaped_flag hc)
      (by simp only [hc, if_true])
    exact ⟨hbyte, hrow, exec_decProcess_of_runBytes hx (runBytes_escaped_flag hc hrest)⟩
  · intro d s x hx hc
    have hrun := exec_decProcess_of_runBytes hx (runBytes_idle_flag_esc_flag hc)
    rwa [set_getElem?_self hx] at hrun

/-! ## O18, O20: the closing flag -/

/-- Settles O18: row 4 does what row 1 does. -/
theorem shortFrameIsSilent : Obligations.ShortFrameIsSilent := by
  unfold Obligations.ShortFrameIsSilent
  intro d s x hdr size fcs hx hc hs
  rw [← afterByte_rowOpen]
  exact exec_decByte_and_row (i := .decCloseShort d) hx rfl (decodeByte_close_short hc hs)
    (by simp only [hc]; exact if_pos ⟨trivial, hs⟩)

/-- Settles O20: row 6, whose event is the one new entry of the record. -/
theorem badChecksumIsDiagnosed : Obligations.BadChecksumIsDiagnosed := by
  unfold Obligations.BadChecksumIsDiagnosed
  intro d s x hdr size fcs hx hc hs hf
  exact exec_decByte_and_row (i := .decCloseBadfcs d) hx rfl (decodeByte_close_badFcs hc hs hf)
    (by simp only [hc]; exact if_pos ⟨trivial, hs, hf⟩)

/-! ## O21, O22, O23: a byte inside a frame -/

/-- Settles O21: with an escape pending, `b` resolves to `b ^ 0x20`, which the resolved-byte rows process. -/
theorem pendingEscapeUnescapesNextByte : Obligations.PendingEscapeUnescapesNextByte := by
  unfold Obligations.PendingEscapeUnescapesNextByte
  intro d b s x hdr size fcs hx hc hb
  have hr : resolvedOf true b = some (b ^^^ 0x20) := by rw [resolvedOf, if_neg hb, if_pos rfl]
  exact exec_decByte_and_row (i := .decUnescape d b) hx rfl (decodeByte_of_resolvedOf hc hr)
    (by simp only [hc]; exact if_pos ⟨trivial, hb⟩)

/-- Settles O22: row 8 changes the one field of the control state. -/
theorem escapeMarkerOnlySetsFlag : Obligations.EscapeMarkerOnlySetsFlag := by
  unfold Obligations.EscapeMarkerOnlySetsFlag
  intro d s x hdr size fcs hx hc
  rw [← afterByte_rowEscMark s d hc]
  exact exec_decByte_and_row (i := .decEscMark d) hx rfl (decodeByte_escMark hc)
    (by simp only [hc, Bool.false_eq_true, if_false])

/-- Settles O23: with no escape pending, `b` resolves to itself, which the resolved-byte rows process. -/
theorem literalByteIsUsedAsIs : Obligations.LiteralByteIsUsedAsIs := by
  unfold Obligations.LiteralByteIsUsedAsIs
  intro d b s x hdr size fcs hx hc he hb
  have hr : resolvedOf false b = some b := by rw [resolvedOf, if_neg hb, if_neg Bool.false_ne_true, if_neg he]
  exact exec_decByte_and_row (i := .decLiteral d b) hx rfl (decodeByte_of_resolvedOf hc hr)
    (by simp only [hc]; exact if_pos ⟨trivial, he, hb⟩)

/-! ## O25, O27: the resolved bytes that give the frame up -/

/-- A byte that is wrong at its header position: there is an expected header byte, and it is another one. -/
theorem expectedHdr_of_wrong_byte {hdr : Fin 3} {r : Byte} (h : (hdr = 0 ∧ r ≠ 0xFF) ∨ (hdr = 1 ∧ r ≠ 0x03)) :
    ∃ v, expectedHdr hdr = some v ∧ r ≠ v ∧ hdr < 2 := by
  obtain ⟨rfl, hr⟩ | ⟨rfl, hr⟩ := h
  · exact ⟨Config.addr, rfl, hr, by decide⟩
  · exact ⟨Config.ctrl, rfl, hr, by decide⟩

/-- Settles O25: both header positions at once, by the byte expected there. -/
theorem wrongHeaderByteAbortsFrame : Obligations.WrongHeaderByteAbortsFrame := by
  unfold Obligations.WrongHeaderByteAbortsFrame
  intro d r s x hdr esc size fcs hx hc hwrong
  obtain ⟨v, hv, hr, hlt⟩ := expectedHdr_of_wrong_byte hwrong
  have hrow : hdr < 2 ∧ expectedHdr hdr ≠ some r := ⟨hlt, by simpa [hv] using Ne.symm hr⟩
  constructor
  · exact onRow_some (r := rowAbort d x .badHeader) hx (by simp only [hc]; exact if_pos hrow)
  · simp only [resolvedByte, hv]
    exact if_neg hr

/-- Settles O27: with both header bytes matched and no room left, the resolved byte reaches row 13. -/
theorem fullBufferAbortsFrame : Obligations.FullBufferAbortsFrame := by
  unfold Obligations.FullBufferAbortsFrame
  intro d r s x esc size fcs hx hc hfull
  constructor
  · exact onRow_some (r := rowAbort d x .oversize) hx (by simp only [hc]; exact if_pos ⟨trivial, hfull.ge⟩)
  · exact if_neg hfull.not_lt

/-! ## O30 -/

/-- Settles O30: the chunk's fold takes one byte at a time, and the instance still exists after each byte. -/
theorem decProcessIsItsExpansion : Obligations.DecProcessIsItsExpansion := by
  unfold Obligations.DecProcessIsItsExpansion
  intro d s hd
  have hx : s.decs[d]? = some s.decs[d] := List.getElem?_eq_getElem hd
  refine ⟨execDecProcess_some hx [], fun c cs => ?_, fun chunk => ⟨_, execDecProcess_some hx chunk⟩⟩
  refine ⟨_, exec_decByte_some hx c, by simp [nDec], ?_⟩
  calc exec (.decProcess d (c :: cs)) s
      = .next (feedChunk d s (c :: cs)) := execDecProcess_some hx (c :: cs)
    _ = .next (feedChunk d (afterByte s d (decodeByte s.params.decCap d s.decs[d] c)) cs) := by
        rw [feedChunk_cons, feedByte_some hx]
    _ = exec (.decProcess d cs) (afterByte s d (decodeByte s.params.decCap d s.decs[d] c)) :=
        (execDecProcess_some (afterByte_get_same _ hx) cs).symm

end Sys2Proof.Machine

/-! PROOFS, family other, the invariant. Every row of 30_encoding.md R69 keeps the invariant of its instance, so every byte,
chunk, instruction and step keeps the machine's. -/

namespace Sys2Proof.Machine

/-! ## The expected header byte (R61, R141) -/

theorem expectedHdr_eq_some {hdr : Fin 3} {r : Byte} :
    expectedHdr hdr = some r ↔ (hdr = 0 ∧ r = 0xFF) ∨ (hdr = 1 ∧ r = 0x03) := by
  match hdr with
  | 0 => simp [expectedHdr, Config.addr, eq_comm]
  | 1 => simp [expectedHdr, Config.ctrl, eq_comm]
  | 2 => simp [expectedHdr]

theorem expectedHdr_eq_none {hdr : Fin 3} : expectedHdr hdr = none ↔ hdr = 2 := by
  match hdr with
  | 0 => simp [expectedHdr]
  | 1 => simp [expectedHdr]
  | 2 => simp [expectedHdr]

/-! ## Bytes standing in a buffer -/

@[simp] theorem bufHolds_nil (buf : Mem) : bufHolds buf [] := fun _ hi => absurd hi (Nat.not_lt_zero _)

/-- A byte written behind the bytes that stand in a buffer stands there with them. -/
theorem bufHolds_memWrite {buf : Mem} {bytes : List Byte} (h : bufHolds buf bytes) (r : Byte) :
    bufHolds (memWrite buf bytes.length r) (bytes ++ [r]) := by
  intro i hi
  by_cases he : i = bytes.length
  · simp [he]
  · have hlt : i < bytes.length := by simp at hi; omega
    rw [memRead_memWrite_other _ _ _ _ he, h i hlt, List.getElem?_append_left hlt]

theorem bufHolds_append_left {buf : Mem} {xs ys : List Byte} (h : bufHolds buf (xs ++ ys)) : bufHolds buf xs := by
  intro i hi
  rw [h i (by simp; omega), List.getElem?_append_left hi]

/-- The byte of the second part at `i` stands behind the first part. -/
theorem bufHolds_append_right {buf : Mem} {xs ys : List Byte} (h : bufHolds buf (xs ++ ys)) {i : Nat}
    (hi : i < ys.length) : memRead buf (xs.length + i) = ys[i]? := by
  rw [h _ (by simp; omega), List.getElem?_append_right (Nat.le_add_right ..), Nat.add_sub_cancel_left]

/-- Where bytes stand in the buffer, the payload copy is those bytes and no free value shows in it. -/
theorem bufPayload_of_bufHolds {buf : Mem} {bytes : List Byte} (h : bufHolds buf bytes) (d : Nat) :
    bufPayload d buf bytes.length = bytes := by
  apply List.ext_getElem (by simp [bufPayload])
  intro i _ hi
  simp [bufPayload, bufByte, h i hi, List.getElem?_eq_getElem hi]

/-! ## The parts of the invariant -/

/-- A byte written below the capacity keeps the buffer's invariant. -/
theorem bufInv_memWrite {cap a : Nat} {buf : Mem} (h : bufInv cap buf) (ha : a < cap) (r : Byte) :
    bufInv cap (memWrite buf a r) :=
  ⟨memWrite_wf _ _ _ h.1, fun b hb => by rw [memRead_memWrite_other _ _ _ _ (by omega), h.2 b hb]⟩

/-- Idle meets the invariant with any buffer that does. -/
theorem decoderInv_idle {cap : Nat} {buf : Mem} (h : bufInv cap buf) : decoderInv cap ⟨.idle, buf⟩ := ⟨trivial, h, trivial⟩

/-- A fresh InFrame meets it: nothing is matched, stored or folded. -/
theorem decoderInv_freshFrame {cap : Nat} {buf : Mem} (h : bufInv cap buf) : decoderInv cap ⟨freshFrame, buf⟩ :=
  ⟨⟨fun _ => rfl, fun h0 => absurd h0 (Nat.lt_irrefl 0), Nat.zero_le cap⟩, h, [], rfl, bufHolds_nil _, rfl⟩

/-- The escape flag is no part of the invariant. -/
theorem decoderInv_writeEsc {cap : Nat} {x : Decoder} (h : decoderInv cap x) (v : Bool) :
    decoderInv cap { x with ctl := writeEsc v x.ctl } := by
  obtain ⟨c, buf⟩ := x
  cases c <;> exact h

/-- One more header byte is matched and none is stored yet. -/
theorem decoderInv_rowHdrMatch {cap : Nat} {x : Decoder} {hdr : Fin 3} {esc esc' : Bool} {size : Nat} {fcs : Word} {r : Byte}
    (h : decoderInv cap x) (hc : x.ctl = .inFrame hdr esc size fcs) (hr : expectedHdr hdr = some r) :
    decoderInv cap (rowHdrMatch x r hdr esc' size fcs).1 := by
  obtain ⟨hctl, hbuf, hframe⟩ := h
  simp only [ctlInv, frameInv, hc] at hctl hframe
  obtain ⟨hempty, _, _⟩ := hctl
  obtain ⟨stored, hlen, _, rfl⟩ := hframe
  obtain ⟨hlt, hbytes⟩ : hdr < 2 ∧ hdrBytes (hdr + 1) = hdrBytes hdr ++ [r] := by
    obtain ⟨rfl, rfl⟩ | ⟨rfl, rfl⟩ := expectedHdr_eq_some.1 hr
    · exact ⟨by decide, rfl⟩
    · exact ⟨by decide, rfl⟩
  have hnil : stored = [] := List.eq_nil_of_length_eq_zero (hlen.trans (hempty hlt))
  rw [hempty hlt]
  refine ⟨⟨fun _ => rfl, fun h0 => absurd h0 (Nat.lt_irrefl 0), Nat.zero_le cap⟩, hbuf, [], rfl, bufHolds_nil _, ?_⟩
  simp [hnil, hbytes, fcsFoldBytes_append]

/-- One more byte is stored behind the others and folded after them. -/
theorem decoderInv_rowStore {cap : Nat} {x : Decoder} {hdr : Fin 3} {esc esc' : Bool} {size : Nat} {fcs : Word} {r : Byte}
    (h : decoderInv cap x) (hc : x.ctl = .inFrame hdr esc size fcs) (hr : expectedHdr hdr = none) (hs : size < cap) :
    decoderInv cap (rowStore x r hdr esc' size fcs).1 := by
  obtain ⟨_, hbuf, hframe⟩ := h
  simp only [frameInv, hc] at hframe
  obtain ⟨stored, rfl, hholds, rfl⟩ := hframe
  obtain rfl := expectedHdr_eq_none.1 hr
  refine ⟨⟨fun h2 => absurd h2 (Nat.lt_irrefl _), fun _ => rfl, hs⟩, bufInv_memWrite hbuf hs r, stored ++ [r], by simp,
    bufHolds_memWrite hholds r, ?_⟩
  simp [← List.append_assoc, fcsFoldBytes_append]

/-! ## What keeps the invariant -/

/-- Every row keeps the invariant of its instance. -/
theorem RowEffect.inv {cap d : Nat} {x : Decoder} {r : Decoder × Option Event} (e : RowEffect cap d x r)
    (h : decoderInv cap x) : decoderInv cap r.1 := by
  have hbuf : bufInv cap x.buf := h.2.1
  cases e with
  | opened => exact decoderInv_freshFrame hbuf
  | ignored => exact h
  | aborted c => exact decoderInv_idle hbuf
  | delivered hdr size hc hs => exact decoderInv_freshFrame hbuf
  | badFcs hdr size fcs hc hs hf => exact decoderInv_freshFrame hbuf
  | escMarked => exact decoderInv_writeEsc h true
  | hdrMatched hdr esc esc' size fcs r hc hr => exact decoderInv_rowHdrMatch h hc hr
  | stored hdr esc esc' size fcs r hc hr hs => exact decoderInv_rowStore h hc hr hs

/-- So does a chunk, byte by byte. -/
theorem decoderInv_runBytes {cap : Nat} (d : Nat) {x : Decoder} (h : decoderInv cap x) (chunk : List Byte) :
    decoderInv cap (runBytes cap d x chunk).1 := by
  induction chunk generalizing x with
  | nil => exact h
  | cons b bs ih => exact ih ((decodeByte_effect cap d x b).inv h)

theorem State.Inv.decoder {s : State} (h : s.Inv) {d : Nat} {x : Decoder} (hx : s.decs[d]? = some x) :
    decoderInv s.params.decCap x := h.1 x (List.mem_of_getElem? hx)

/-- The machine's invariant, where one instance was replaced by one that meets it and events were handed over. -/
theorem State.Inv.emitEvents_putDecoder {s : State} (h : s.Inv) (d : Nat) {y : Decoder}
    (hy : decoderInv s.params.decCap y) (es : List Event) : (emitEvents (putDecoder s d y) es).Inv := by
  refine ⟨fun z hz => ?_, h.2⟩
  obtain hz | rfl := List.mem_or_eq_of_mem_set hz
  · exact h.1 z hz
  · exact hy

/-- Writing one of the host's buffers in canonical form keeps the host's buffers in theirs. -/
theorem encOutInv_assocPut {bufs : List (Nat × Mem)} (h : encOutInv bufs) (out : Nat) {m : Mem} (hm : memWf m = true) :
    encOutInv (assocPut bufs out m) := by
  refine ⟨assocPut_sorted _ _ _ h.1, fun p hp => ?_⟩
  obtain rfl | hp := mem_assocPut hp
  · exact hm
  · exact h.2 p hp

/-- Every instruction that completes keeps the machine's invariant. -/
theorem exec_inv {i : Instr} {s t : State} (h : s.Inv) (hi : exec i s = .next t) : t.Inv := by
  cases hd : decoderOf i with
  | some d =>
    obtain ⟨x, hx, ⟨r, hr, rfl⟩ | ⟨chunk, rfl, rfl⟩ | ⟨rfl, rfl⟩⟩ := exec_decoder_cases hd hi
    · exact h.emitEvents_putDecoder d (hr.inv (h.decoder hx)) _
    · rw [feedChunk_some hx]
      exact h.emitEvents_putDecoder d (decoderInv_runBytes d (h.decoder hx) chunk) _
    · exact h.emitEvents_putDecoder d (decoderInv_idle (h.decoder hx).2.1) []
  | none =>
    obtain ⟨o, rfl⟩ | ⟨payload, size, out, rfl, hs, rfl⟩ | ⟨payload, size, out, rfl, hs, rfl⟩ := exec_other_cases hd hi
    · exact h
    · exact h
    · exact ⟨h.1, encOutInv_assocPut h.2 out (encPutAll_wf _ _ (encBuf_wf s out h.2.2))⟩

/-! ## O57, O58 -/

/-- Settles O57: the queue is no part of the invariant, and every instruction keeps it. -/
theorem stepKeepsTheInvariant : Obligations.StepKeepsTheInvariant := by
  unfold Obligations.StepKeepsTheInvariant
  intro s t h hstep
  obtain ⟨_, rfl⟩ | ⟨c, cs, i, _, _, hi⟩ := step_cases hstep
  · exact h
  · have hq : State.Inv { s with pending := cs } := h
    exact exec_inv hq hi

theorem powerUp_inv (n : Nat) (p : Params) : (State.powerUp n p).Inv := by
  refine ⟨fun x hx => ?_, rfl, fun m hm => nomatch hm⟩
  rw [(List.mem_replicate.1 hx).2]
  exact decoderInv_idle ⟨rfl, fun _ _ => rfl⟩

/-- Settles O58: every instance is in Idle with an unwritten buffer. -/
theorem powerUpMeetsTheInvariant : Obligations.PowerUpMeetsTheInvariant := by
  unfold Obligations.PowerUpMeetsTheInvariant
  exact ⟨powerUp_inv, powerUp_inv _ _⟩

end Sys2Proof.Machine

/-! PROOFS, family other, deliveries. A FRAME_READY comes from row 5 only, and the invariant says what stands in the buffer
there. Each event of a chunk is the event of one of its bytes. -/

namespace Sys2Proof.Machine

/-! ## What a good frame holds (42_decoder.md R148) -/

/-- Where the checksum of four or more stored bytes is the good residue, these bytes are a payload and two FCS bytes that
pass the checksum. -/
theorem decoderInv_good {cap : Nat} {x : Decoder} {hdr : Fin 3} {esc : Bool} {size : Nat} (h : decoderInv cap x)
    (hc : x.ctl = .inFrame hdr esc size 0xF0B8) (hs : 4 ≤ size) :
    size ≤ cap ∧ ∃ (p : List Byte) (lo hi : Byte), p.length + 2 = size ∧ bufHolds x.buf (p ++ [lo, hi]) ∧
      (0xFF :: 0x03 :: p ++ [lo, hi]).foldl fcsUpdate 0xFFFF = 0xF0B8 := by
  obtain ⟨hctl, _, hframe⟩ := h
  simp only [ctlInv, frameInv, hc] at hctl hframe
  obtain ⟨_, hmatched, hcap⟩ := hctl
  obtain rfl := hmatched (by omega)
  obtain ⟨stored, hlen, hholds, hfcs⟩ := hframe
  obtain ⟨lo, hi, hlast⟩ := List.length_eq_two.1 (show (stored.drop (size - 2)).length = 2 by simp; omega)
  have hsplit : stored.take (size - 2) ++ [lo, hi] = stored := by rw [← hlast, List.take_append_drop]
  refine ⟨hcap, stored.take (size - 2), lo, hi, by simp; omega, hsplit.symm ▸ hholds, ?_⟩
  rw [List.cons_append, List.cons_append, hsplit]
  exact hfcs.symm

/-- What a reader of the buffer sees of a payload and its two FCS bytes. -/
theorem decBufRead_of_bufHolds {s : State} {d : Nat} {x : Decoder} {p : List Byte} {lo hi : Byte}
    (hx : s.decs[d]? = some x) (h : bufHolds x.buf (p ++ [lo, hi])) :
    (∀ a, a < p.length → decBufRead s d a = p[a]?) ∧ decBufRead s d p.length = some lo ∧
      decBufRead s d (p.length + 1) = some hi := by
  simp only [decBufRead_some hx]
  exact ⟨bufHolds_append_left h, bufHolds_append_right h (i := 0) Nat.two_pos, bufHolds_append_right h (i := 1) Nat.one_lt_two⟩

/-! ## The row that delivers (R135) -/

theorem decodeByte_close_good {cap d : Nat} {x : Decoder} {hdr : Fin 3} {size : Nat}
    (hc : x.ctl = .inFrame hdr false size 0xF0B8) (hs : 4 ≤ size) : decodeByte cap d x 0x7E = rowDeliver d x size := by
  simp [decodeByte, hc, Config.flag, Config.minSize, Config.fcsGood, Nat.not_lt.2 hs]

/-- Only row 5 hands over a FRAME_READY. -/
theorem RowEffect.frameReady {cap d : Nat} {x : Decoder} {r : Decoder × Option Event} (e : RowEffect cap d x r)
    {d' len : Nat} {p : List Byte} (hr : r.2 = some (.frameReady d' len p)) :
    ∃ hdr size, x.ctl = .inFrame hdr false size 0xF0B8 ∧ 4 ≤ size ∧ d' = d ∧ len = size - 2 ∧
      p = bufPayload d x.buf (size - 2) := by
  cases e with
  | delivered hdr size hc hs =>
    cases hr
    exact ⟨hdr, size, hc, hs, rfl, rfl, rfl⟩
  | _ => cases hr

/-- From an instance that meets the invariant, a delivered payload is within its bounds (R152), stands in the buffer with its
two FCS bytes, and passes the checksum (R148). -/
theorem RowEffect.delivered_content {cap d : Nat} {x : Decoder} {r : Decoder × Option Event} (e : RowEffect cap d x r)
    (h : decoderInv cap x) {d' len : Nat} {p : List Byte} (hr : r.2 = some (.frameReady d' len p)) :
    d' = d ∧ p.length = len ∧ 2 ≤ len ∧ len + 2 ≤ cap ∧
      ∃ lo hi : Byte, bufHolds x.buf (p ++ [lo, hi]) ∧
        (0xFF :: 0x03 :: p ++ [lo, hi]).foldl fcsUpdate 0xFFFF = 0xF0B8 := by
  obtain ⟨hdr, size, hc, hs, rfl, rfl, rfl⟩ := e.frameReady hr
  obtain ⟨hcap, q, lo, hi, hq, hholds, hgood⟩ := decoderInv_good h hc hs
  have hlen : size - 2 = q.length := by omega
  have hpay : bufPayload d' x.buf (size - 2) = q := by
    rw [hlen]
    exact bufPayload_of_bufHolds (bufHolds_append_left hholds) d'
  rw [hpay]
  exact ⟨rfl, hlen.symm, by omega, by omega, lo, hi, hholds, hgood⟩

/-! ## The events of a chunk -/

/-- An event of a chunk is that of one of its bytes, on the instance as the bytes before it left it. -/
theorem mem_events_runBytes {cap d : Nat} {x : Decoder} {chunk : List Byte} {ev : Event}
    (h : ev ∈ (runBytes cap d x chunk).2) :
    ∃ pre b post, chunk = pre ++ b :: post ∧ (decodeByte cap d (runBytes cap d x pre).1 b).2 = some ev := by
  induction chunk generalizing x with
  | nil => cases h
  | cons b bs ih =>
    obtain hb | hbs := List.mem_append.1 h
    · exact ⟨[], b, bs, rfl, Option.mem_toList.1 hb⟩
    · obtain ⟨pre, c, post, rfl, hc⟩ := ih hbs
      exact ⟨b :: pre, c, post, rfl, hc⟩

/-! ## The byte an input byte resolves to (R137 to R139) -/

theorem resolvedOf_true {b : Byte} (hb : b ≠ 0x7E) : resolvedOf true b = some (b ^^^ 0x20) := by
  rw [resolvedOf, if_neg hb, if_pos rfl]

theorem resolvedOf_false {b : Byte} (he : b ≠ 0x7D) (hb : b ≠ 0x7E) : resolvedOf false b = some b := by
  rw [resolvedOf, if_neg hb, if_neg Bool.false_ne_true, if_neg he]

/-- Only a flag and an unescaped escape marker resolve to no byte. -/
theorem eq_of_resolvedOf_none {esc : Bool} {b : Byte} (h : resolvedOf esc b = none) : b = 0x7E ∨ b = 0x7D ∧ esc = false := by
  by_cases hb : b = 0x7E
  · exact .inl hb
  · cases esc with
    | true => rw [resolvedOf_true hb] at h; cases h
    | false =>
      by_cases he : b = 0x7D
      · exact .inr ⟨he, rfl⟩
      · rw [resolvedOf_false he hb] at h; cases h

/-- A byte in a frame is a flag that rows 3, 4, 5 or 6 take, an escape marker (row 8), or resolves to a byte. -/
theorem byte_inFrame_cases (esc : Bool) (size : Nat) (fcs : Word) (b : Byte) :
    (b = 0x7E ∧ esc = true) ∨ (b = 0x7E ∧ esc = false ∧ size < 4) ∨ (b = 0x7E ∧ esc = false ∧ 4 ≤ size ∧ fcs = 0xF0B8) ∨
      (b = 0x7E ∧ esc = false ∧ 4 ≤ size ∧ fcs ≠ 0xF0B8) ∨ (b = 0x7D ∧ esc = false) ∨ ∃ r, resolvedOf esc b = some r := by
  cases hr : resolvedOf esc b with
  | some r => simp
  | none =>
    obtain rfl | ⟨rfl, rfl⟩ := eq_of_resolvedOf_none hr
    · cases esc with
      | true => simp
      | false =>
        obtain hs | hs := Nat.lt_or_ge size 4
        · simp [hs]
        · simp [hs, em]
    · simp

/-! ## The row of a resolved byte (R141 to R144) -/

section
variable {cap d : Nat} {x : Decoder} {r : Byte} {hdr : Fin 3} {esc : Bool} {size : Nat} {fcs : Word}

theorem resolvedByte_hdrMatch (h : expectedHdr hdr = some r) :
    resolvedByte cap d x r hdr esc size fcs = rowHdrMatch x r hdr esc size fcs := by
  simp [resolvedByte, h]

theorem resolvedByte_hdrBad (h : (hdr = 0 ∧ r ≠ 0xFF) ∨ (hdr = 1 ∧ r ≠ 0x03)) :
    resolvedByte cap d x r hdr esc size fcs = rowAbort d x .badHeader := by
  obtain ⟨v, hv, hne, _⟩ := expectedHdr_of_wrong_byte h
  simp [resolvedByte, hv, hne]

theorem resolvedByte_store (hs : size < cap) :
    resolvedByte cap d x r 2 esc size fcs = rowStore x r 2 esc size fcs := if_pos hs

theorem resolvedByte_oversize (hs : cap ≤ size) :
    resolvedByte cap d x r 2 esc size fcs = rowAbort d x .oversize := if_neg (Nat.not_lt.2 hs)

/-- A header position and a byte: the byte is the expected one or not, or the header is matched. -/
theorem expectedHdr_cases (hdr : Fin 3) (r : Byte) :
    expectedHdr hdr = some r ∨ ((hdr = 0 ∧ r ≠ 0xFF) ∨ (hdr = 1 ∧ r ≠ 0x03)) ∨ hdr = 2 := by
  match hdr with
  | 0 => exact (em (r = 0xFF)).imp (fun h => expectedHdr_eq_some.2 (.inl ⟨rfl, h⟩)) (fun h => .inl (.inl ⟨rfl, h⟩))
  | 1 => exact (em (r = 0x03)).imp (fun h => expectedHdr_eq_some.2 (.inr ⟨rfl, h⟩)) (fun h => .inl (.inr ⟨rfl, h⟩))
  | 2 => exact .inr (.inr rfl)

end

/-- The four rows of a resolved byte, each with its condition. -/
theorem resolvedByte_cases (cap d : Nat) (x : Decoder) (r : Byte) (hdr : Fin 3) (esc : Bool) (size : Nat) (fcs : Word) :
    (expectedHdr hdr = some r ∧ resolvedByte cap d x r hdr esc size fcs = rowHdrMatch x r hdr esc size fcs) ∨
      (((hdr = 0 ∧ r ≠ 0xFF) ∨ (hdr = 1 ∧ r ≠ 0x03)) ∧
        resolvedByte cap d x r hdr esc size fcs = rowAbort d x .badHeader) ∨
      (hdr = 2 ∧ size < cap ∧ resolvedByte cap d x r hdr esc size fcs = rowStore x r hdr esc size fcs) ∨
      (hdr = 2 ∧ cap ≤ size ∧ resolvedByte cap d x r hdr esc size fcs = rowAbort d x .oversize) := by
  obtain h | h | rfl := expectedHdr_cases hdr r
  · exact .inl ⟨h, resolvedByte_hdrMatch h⟩
  · exact .inr (.inl ⟨h, resolvedByte_hdrBad h⟩)
  · obtain hs | hs := Nat.lt_or_ge size cap
    · exact .inr (.inr (.inl ⟨rfl, hs, resolvedByte_store hs⟩))
    · exact .inr (.inr (.inr ⟨rfl, hs, resolvedByte_oversize hs⟩))

/-- No byte but a flag delivers. -/
theorem eq_flag_of_frameReady {cap d : Nat} {x : Decoder} {b : Byte} {e len : Nat} {p : List Byte}
    (h : (decodeByte cap d x b).2 = some (.frameReady e len p)) : b = 0x7E := by
  obtain ⟨hdr, size, hc, _⟩ := (decodeByte_effect cap d x b).frameReady h
  cases hr : resolvedOf false b with
  | none =>
    obtain hb | ⟨rfl, _⟩ := eq_of_resolvedOf_none hr
    · exact hb
    · rw [decodeByte_escMark hc] at h
      cases h
  | some r =>
    rw [decodeByte_of_resolvedOf hc hr] at h
    obtain ⟨_, he⟩ | ⟨_, he⟩ | ⟨_, _, he⟩ | ⟨_, _, he⟩ := resolvedByte_cases cap d x r hdr false size 0xF0B8 <;>
      rw [he] at h <;> cases h

/-! ## The events of an instruction -/

/-- An instruction that names no instance hands over no decoder event. -/
theorem exec_other_outputs {i : Instr} {s t : State} (hd : decoderOf i = none) (h : exec i s = .next t) :
    ∃ os, t.outputs = s.outputs ++ os ∧ ∀ e, Output.event e ∉ os := by
  cases i <;> simp only [decoderOf, reduceCtorEq] at hd <;> simp only [exec] at h
  case encProcess payload size out =>
    obtain ⟨_, he⟩ | ⟨_, _, he⟩ | ⟨_, _, he⟩ := execEncProcess_cases payload size out s <;> rw [he] at h <;> cases h
    · exact ⟨[], by simp, by simp⟩
    · exact ⟨_, rfl, by simp⟩
  case stuffPass b =>
    unfold execStuffPass at h
    split at h <;> cases h
    exact ⟨_, rfl, by simp⟩
  case tblRead | fcsUpdate | fcsFold | stuffEsc | stuffFlag =>
    cases h
    exact ⟨_, rfl, by simp⟩
  all_goals cases h

/-- From a state that meets the invariant, every event an instruction hands over is that of a row on an instance that meets
it. -/
theorem exec_event_of_row {i : Instr} {s t : State} (h : s.Inv) (hi : exec i s = .next t) :
    ∃ os, t.outputs = s.outputs ++ os ∧ ∀ ev, Output.event ev ∈ os →
      ∃ d x r, decoderInv s.params.decCap x ∧ RowEffect s.params.decCap d x r ∧ r.2 = some ev := by
  cases hd : decoderOf i with
  | none =>
    obtain ⟨os, hos, hno⟩ := exec_other_outputs hd hi
    exact ⟨os, hos, fun ev hev => absurd hev (hno ev)⟩
  | some d =>
    obtain ⟨x, hx, ⟨r, hr, rfl⟩ | ⟨chunk, rfl, rfl⟩ | ⟨rfl, rfl⟩⟩ := exec_decoder_cases hd hi
    · exact ⟨_, rfl, fun ev hev => ⟨d, x, r, h.decoder hx, hr, by simpa using hev⟩⟩
    · rw [feedChunk_some hx]
      refine ⟨_, rfl, fun ev hev => ?_⟩
      obtain ⟨pre, b, post, rfl, hb⟩ := mem_events_runBytes (by simpa using hev)
      exact ⟨d, _, _, decoderInv_runBytes d (h.decoder hx) pre, decodeByte_effect _ _ _ b, hb⟩
    · exact ⟨[], by simp, fun ev hev => nomatch hev⟩

/-! ## O32, O33, O34 -/

/-- Settles O32: the bounds of the row that delivers, whatever instruction took it. -/
theorem deliveredLengthBounds : Obligations.DeliveredLengthBounds := by
  unfold Obligations.DeliveredLengthBounds
  intro s t h hstep
  obtain ⟨_, rfl⟩ | ⟨c, cs, i, _, _, hi⟩ := step_cases hstep
  · exact ⟨[], by simp, fun d len p hev => nomatch hev⟩
  · have hq : State.Inv { s with pending := cs } := h
    obtain ⟨os, hos, hrow⟩ := exec_event_of_row hq hi
    refine ⟨os, hos, fun d len p hev => ?_⟩
    obtain ⟨e, x, r, hx, heff, hr⟩ := hrow _ hev
    obtain ⟨_, hlen, hmin, hmax, _⟩ := heff.delivered_content hx hr
    exact ⟨hmin, hmax, hlen⟩

/-- The first clause of O33: outside DEC_PROCESS the row that delivers runs in the state itself. -/
theorem exec_frameReady_content {i : Instr} {d len : Nat} {p : List Byte} {s t : State} (h : s.Inv)
    (hchunk : ∀ e chunk, i ≠ .decProcess e chunk) (hi : exec i s = .next t)
    (hout : t.outputs = s.outputs ++ [.event (.frameReady d len p)]) :
    ∃ lo hi : Byte, p.length = len ∧ (∀ a, a < len → decBufRead s d a = p[a]?) ∧
      decBufRead s d len = some lo ∧ decBufRead s d (len + 1) = some hi ∧
      (0xFF :: 0x03 :: p ++ [lo, hi]).foldl fcsUpdate 0xFFFF = 0xF0B8 := by
  cases hd : decoderOf i with
  | none =>
    obtain ⟨os, hos, hno⟩ := exec_other_outputs hd hi
    obtain rfl : os = [.event (.frameReady d len p)] := List.append_cancel_left (hos.symm.trans hout)
    exact absurd (List.mem_singleton_self _) (hno _)
  | some e =>
    obtain ⟨x, hx, ⟨r, hr, rfl⟩ | ⟨chunk, rfl, _⟩ | ⟨rfl, rfl⟩⟩ := exec_decoder_cases hd hi
    · have hev : r.2.toList.map Output.event = [.event (.frameReady d len p)] := List.append_cancel_left hout
      have hr2 : r.2 = some (.frameReady d len p) := by
        cases h2 : r.2 <;> simp_all
      obtain ⟨rfl, rfl, _, _, lo, hi, hholds, hgood⟩ := hr.delivered_content (h.decoder hx) hr2
      obtain ⟨hpay, hlo, hhi⟩ := decBufRead_of_bufHolds hx hholds
      exact ⟨lo, hi, rfl, hpay, hlo, hhi, hgood⟩
    · exact absurd rfl (hchunk e chunk)
    · simp at hout

/-- Settles O33: the row that delivers, and for a chunk the DEC_BYTE of the flag that delivers, after the bytes before it. -/
theorem deliveredFramesPassTheChecksum : Obligations.DeliveredFramesPassTheChecksum := by
  unfold Obligations.DeliveredFramesPassTheChecksum
  refine ⟨fun i d len p s t h hchunk hi hout => exec_frameReady_content h hchunk hi hout, fun d chunk s t h hi => ?_⟩
  obtain ⟨x, hx, _⟩ := withDecoder_next hi
  have hrun : ∀ bs, exec (.decProcess d bs) s =
      .next (emitEvents (putDecoder s d (runBytes s.params.decCap d x bs).1) (runBytes s.params.decCap d x bs).2) :=
    fun bs => exec_decProcess_of_runBytes hx rfl
  cases hi.symm.trans (hrun chunk)
  refine ⟨_, rfl, fun e len p hev => ?_⟩
  obtain ⟨pre, b, post, rfl, hb⟩ := mem_events_runBytes (by simpa using hev)
  obtain rfl := eq_flag_of_frameReady hb
  have hy : ∀ (y : Decoder) (es : List Event), (emitEvents (putDecoder s d y) es).decs[d]? = some y :=
    fun y _ => putDecoder_get_same y hx
  exact ⟨pre, post, _, _, rfl, hrun pre, exec_inv h (hrun pre), exec_decByte_some (hy _ _) 0x7E, by simpa using hb⟩

/-- Settles O34: row 5 leaves the buffer in which the invariant places the payload and its two FCS bytes. -/
theorem deliveredContentIsTheStoredBytes : Obligations.DeliveredContentIsTheStoredBytes := by
  unfold Obligations.DeliveredContentIsTheStoredBytes
  intro d s t x hdr size h hx hc hs ht
  obtain rfl : afterByte s d (rowDeliver d x size) = t := by
    have := exec_decByte_some hx 0x7E
    rw [decodeByte_close_good hc hs, ht] at this
    cases this
    rfl
  obtain ⟨_, p, lo, hi, rfl, hholds, hgood⟩ := decoderInv_good (h.decoder hx) hc hs
  obtain ⟨hpay, hlo, hhi⟩ := decBufRead_of_bufHolds (afterByte_get_same (rowDeliver d x (p.length + 2)) hx) hholds
  refine ⟨p, lo, hi, rfl, ?_, hpay, hlo, hhi, hgood⟩
  simp [rowDeliver, bufPayload_of_bufHolds (bufHolds_append_left hholds)]

end Sys2Proof.Machine

/-! PROOFS, family other, streams. A byte in any form of the wire does what its resolved byte does; so the body of an encoded
frame, fed to a fresh frame, stores payload and FCS, or runs into the end of the buffer. -/

namespace Sys2Proof.Machine

/-! ## The forms of a byte on the wire (30_encoding.md R71) -/

/-- What the encoder sends for a byte is one of the forms the decoder reads as that byte. -/
theorem wireForm_stuff (b : Byte) : wireForm (stuff b) b := by
  by_cases h : b = 0x7D ∨ b = 0x7E
  · rw [stuff_of_special h]
    refine .inr ⟨b ^^^ 0x20, rfl, ?_⟩
    obtain rfl | rfl := h <;> decide
  · rw [stuff_of_plain h]
    exact .inl ⟨b, rfl, resolvedOf_false (fun he => h (.inl he)) (fun hb => h (.inr hb))⟩

/-- Of the instance, the resolved-byte rows read only the buffer they write. -/
theorem resolvedByte_withCtl (cap d : Nat) (x : Decoder) (c : Ctl) (r : Byte) (hdr : Fin 3) (esc : Bool) (size : Nat)
    (fcs : Word) : resolvedByte cap d { x with ctl := c } r hdr esc size fcs = resolvedByte cap d x r hdr esc size fcs := by
  unfold resolvedByte
  split <;> split <;> rfl

/-- A byte in any form of the wire is its resolved byte. -/
theorem runBytes_wireForm {cap d : Nat} {x : Decoder} {hdr : Fin 3} {size : Nat} {fcs : Word} {w : List Byte} {r : Byte}
    (hc : x.ctl = .inFrame hdr false size fcs) (hw : wireForm w r) :
    runBytes cap d x w =
      ((resolvedByte cap d x r hdr false size fcs).1, (resolvedByte cap d x r hdr false size fcs).2.toList) := by
  obtain ⟨b, rfl, hb⟩ | ⟨b, rfl, hb⟩ := hw
  · simp [runBytes, decodeByte_of_resolvedOf hc hb]
  · have hmark : rowEscMark x = ({ x with ctl := .inFrame hdr true size fcs }, none) := by rw [rowEscMark, hc, writeEsc]
    have hbyte : decodeByte cap d (rowEscMark x).1 b = resolvedByte cap d x r hdr false size fcs := by
      rw [hmark, decodeByte_of_resolvedOf rfl hb, resolvedByte_withCtl]
    rw [runBytes, decodeByte_escMark hc, runBytes, hbyte]
    simp [runBytes, rowEscMark]

/-- A byte in any form of the wire before more bytes, with the row `res` that its resolved byte takes. -/
theorem runBytes_wireForm_append {cap d : Nat} {x : Decoder} {hdr : Fin 3} {size : Nat} {fcs : Word} {w : List Byte}
    {r : Byte} {res : Decoder × Option Event} (hc : x.ctl = .inFrame hdr false size fcs) (hw : wireForm w r)
    (hr : resolvedByte cap d x r hdr false size fcs = res) (rest : List Byte) :
    runBytes cap d x (w ++ rest) = ((runBytes cap d res.1 rest).1, res.2.toList ++ (runBytes cap d res.1 rest).2) := by
  rw [runBytes_append, runBytes_wireForm hc hw, hr]

/-! ## Stuffed bytes behind a matched header (R143, R144) -/

/-- With room for all of them, stuffed bytes are stored behind the bytes that stand in the buffer, and folded. -/
theorem runBytes_stuffAll_stored {cap d : Nat} {x : Decoder} {fcs : Word} {stored : List Byte} (bs : List Byte)
    (hc : x.ctl = .inFrame 2 false stored.length fcs) (hbuf : bufHolds x.buf stored)
    (hroom : stored.length + bs.length ≤ cap) :
    ∃ y, runBytes cap d x (stuffAll bs) = (y, []) ∧
      y.ctl = .inFrame 2 false (stored.length + bs.length) (fcsFoldBytes fcs bs) ∧ bufHolds y.buf (stored ++ bs) := by
  induction bs generalizing x fcs stored with
  | nil => exact ⟨x, rfl, hc, by simpa using hbuf⟩
  | cons b bs ih =>
    have hroom' : (stored ++ [b]).length + bs.length ≤ cap := by simp at hroom ⊢; omega
    have hstore : resolvedByte cap d x b 2 false stored.length fcs = rowStore x b 2 false stored.length fcs :=
      resolvedByte_store (by simp at hroom; omega)
    obtain ⟨y, hrun, hy, hholds⟩ :=
      ih (x := (rowStore x b 2 false stored.length fcs).1) (fcs := fcsUpdate fcs b) (by simp [rowStore])
        (bufHolds_memWrite hbuf b) hroom'
    refine ⟨y, ?_, by simpa [Nat.add_assoc, Nat.add_comm 1] using hy, by simpa using hholds⟩
    rw [stuffAll_cons, runBytes_wireForm_append hc (wireForm_stuff b) hstore, hrun]
    rfl

/-- No byte that the stuffer sends is a flag. -/
theorem flag_not_mem_stuffAll (bs : List Byte) : 0x7E ∉ stuffAll bs := by
  intro h
  obtain ⟨b, _, hb⟩ := List.mem_flatMap.1 h
  exact flag_not_mem_stuff b hb

/-- With too little room, they give one OVERSIZE, and the rest of them is discarded. -/
theorem runBytes_stuffAll_oversize {cap d : Nat} {x : Decoder} {size : Nat} {fcs : Word} (bs : List Byte)
    (hc : x.ctl = .inFrame 2 false size fcs) (hs : size ≤ cap) (hroom : cap < size + bs.length) :
    ∃ y, runBytes cap d x (stuffAll bs) = (y, [.diag d .oversize]) ∧ y.ctl = .idle := by
  induction bs generalizing x size fcs with
  | nil => simp at hroom; omega
  | cons b bs ih =>
    rw [stuffAll_cons]
    by_cases hlt : size < cap
    · obtain ⟨y, hrun, hy⟩ := ih (x := (rowStore x b 2 false size fcs).1) rfl hlt (by simp at hroom; omega)
      refine ⟨y, ?_, hy⟩
      rw [runBytes_wireForm_append hc (wireForm_stuff b) (resolvedByte_store hlt), hrun]
      rfl
    · have hidle : (rowAbort d x .oversize).1.ctl = .idle := rfl
      refine ⟨_, ?_, hidle⟩
      rw [runBytes_wireForm_append hc (wireForm_stuff b) (resolvedByte_oversize (Nat.le_of_not_lt hlt)),
        runBytes_idle_of_no_flag hidle (flag_not_mem_stuffAll bs)]
      rfl

/-! ## The header of a frame (R141) -/

/-- After the first header byte, in any form of the wire. -/
theorem runBytes_addr {cap d : Nat} {x : Decoder} {w : List Byte} (hc : x.ctl = freshFrame) (hw : wireForm w 0xFF)
    (rest : List Byte) :
    runBytes cap d x (w ++ rest) =
      runBytes cap d { x with ctl := .inFrame 1 false 0 (fcsUpdate 0xFFFF 0xFF) } rest := by
  rw [runBytes_wireForm_append hc hw (resolvedByte_hdrMatch rfl)]
  rfl

/-- After both header bytes, in any form of the wire. -/
theorem runBytes_header {cap d : Nat} {x : Decoder} {w1 w2 : List Byte} (hc : x.ctl = freshFrame)
    (hw1 : wireForm w1 0xFF) (hw2 : wireForm w2 0x03) (rest : List Byte) :
    runBytes cap d x (w1 ++ (w2 ++ rest)) =
      runBytes cap d { x with ctl := .inFrame 2 false 0 (fcsFoldBytes 0xFFFF [0xFF, 0x03]) } rest := by
  rw [runBytes_addr hc hw1, runBytes_wireForm_append rfl hw2 (resolvedByte_hdrMatch rfl)]
  rfl

/-! ## A flag with no escape pending (R131, R134 to R136) -/

/-- What a flag does there: it opens a frame, delivers the one in progress, or reports its checksum. -/
theorem decodeByte_flag_cases {x : Decoder} (cap d : Nat) (h : escFlag? x.ctl ≠ some true) :
    decodeByte cap d x 0x7E = rowOpen x ∨
      (∃ hdr size, x.ctl = .inFrame hdr false size 0xF0B8 ∧ 4 ≤ size ∧ decodeByte cap d x 0x7E = rowDeliver d x size) ∨
      ∃ size fcs, decodeByte cap d x 0x7E = rowBadFcs d x size fcs := by
  cases hc : x.ctl with
  | idle => exact .inl (decodeByte_idle_flag hc)
  | inFrame hdr esc size fcs =>
    obtain rfl : esc = false := by simpa [hc, escFlag?] using h
    obtain hs | hs := Nat.lt_or_ge size 4
    · exact .inl (decodeByte_close_short hc hs)
    · obtain rfl | hf := eq_or_ne fcs 0xF0B8
      · exact .inr (.inl ⟨hdr, size, rfl, hs, decodeByte_close_good hc hs⟩)
      · exact .inr (.inr ⟨size, fcs, decodeByte_close_badFcs hc hs hf⟩)

/-- In each case it leaves a fresh InFrame with the buffer as before. -/
theorem decodeByte_flag_opens {x : Decoder} (cap d : Nat) (h : escFlag? x.ctl ≠ some true) :
    (decodeByte cap d x 0x7E).1 = { x with ctl := freshFrame } := by
  obtain he | ⟨_, _, _, _, he⟩ | ⟨_, _, he⟩ := decodeByte_flag_cases cap d h <;> rw [he] <;> rfl

/-- A flag leads to a fresh frame, and the bytes after it are read from there. -/
theorem runBytes_flag_cons {cap d : Nat} {x : Decoder} (h : escFlag? x.ctl ≠ some true) (rest : List Byte) :
    runBytes cap d x (0x7E :: rest) =
      ((runBytes cap d { x with ctl := freshFrame } rest).1,
        (decodeByte cap d x 0x7E).2.toList ++ (runBytes cap d { x with ctl := freshFrame } rest).2) := by
  rw [runBytes, decodeByte_flag_opens cap d h]

/-! ## The body of an encoded frame and its closing flag (R149) -/

/-- What an encoded frame hands over once it is closed. -/
def frameEvents (cap d : Nat) (payload : List Byte) : List Event :=
  if payload.length + 2 > cap then [.diag d .oversize]
  else if payload.length < 2 then []
  else [.frameReady d payload.length payload]

/-- The residue of an encoded frame is the good one (R86). -/
theorem fcsFoldBytes_frameBody (payload : List Byte) : fcsFoldBytes 0xFFFF (frameBody payload) = 0xF0B8 :=
  fcsResidueLaw (Config.addr :: Config.ctrl :: payload) (frameFcs payload) rfl

/-- The closing flag on a complete encoded frame. -/
theorem runBytes_close_frame {cap d : Nat} {x : Decoder} {payload : List Byte} {lo hi : Byte}
    (hcap : payload.length + 2 ≤ cap) (hc : x.ctl = .inFrame 2 false (payload.length + 2) 0xF0B8)
    (hbuf : bufHolds x.buf (payload ++ [lo, hi])) :
    runBytes cap d x [0x7E] = ({ x with ctl := freshFrame }, frameEvents cap d payload) := by
  unfold frameEvents
  rw [if_neg (Nat.not_lt.2 hcap)]
  by_cases hs : payload.length < 2
  · rw [if_pos hs, runBytes, decodeByte_close_short hc (by omega)]
    rfl
  · rw [if_neg hs, runBytes, decodeByte_close_good hc (by omega)]
    simp [runBytes, rowDeliver, bufPayload_of_bufHolds (bufHolds_append_left hbuf)]

/-- The stuffed body of an encoded frame and its closing flag, in a fresh frame. -/
theorem runBytes_frameBody {cap d : Nat} {x : Decoder} (payload : List Byte) (hc : x.ctl = freshFrame) :
    ∃ y, runBytes cap d x (stuffAll (frameBody payload) ++ [0x7E]) = (y, frameEvents cap d payload) ∧
      y.ctl = freshFrame ∧ (payload.length + 2 ≤ cap → bufHolds y.buf payload) := by
  obtain ⟨lo, hi, hbody⟩ : ∃ lo hi, frameBody payload = 0xFF :: 0x03 :: (payload ++ [lo, hi]) := ⟨_, _, rfl⟩
  have hgood : fcsFoldBytes (fcsFoldBytes 0xFFFF [0xFF, 0x03]) (payload ++ [lo, hi]) = 0xF0B8 := by
    rw [← fcsFoldBytes_append, ← fcsFoldBytes_frameBody payload, hbody]
    rfl
  have hstream : stuffAll (frameBody payload) ++ [0x7E] =
      stuff 0xFF ++ (stuff 0x03 ++ (stuffAll (payload ++ [lo, hi]) ++ [0x7E])) := by
    simp only [hbody, stuffAll_cons, List.append_assoc]
  rw [hstream, runBytes_header hc (wireForm_stuff _) (wireForm_stuff _), runBytes_append]
  by_cases hcap : payload.length + 2 ≤ cap
  · obtain ⟨y, hrun, hy, hbuf⟩ := runBytes_stuffAll_stored (cap := cap) (d := d) (stored := [])
      (x := { x with ctl := .inFrame 2 false 0 (fcsFoldBytes 0xFFFF [0xFF, 0x03]) }) (payload ++ [lo, hi]) rfl
      (bufHolds_nil _) (by simpa using hcap)
    rw [hgood] at hy
    rw [hrun, runBytes_close_frame hcap (by simpa using hy) hbuf]
    exact ⟨_, rfl, rfl, fun _ => bufHolds_append_left hbuf⟩
  · obtain ⟨y, hrun, hy⟩ := runBytes_stuffAll_oversize (cap := cap) (d := d)
      (x := { x with ctl := .inFrame 2 false 0 (fcsFoldBytes 0xFFFF [0xFF, 0x03]) }) (payload ++ [lo, hi]) rfl
      (Nat.zero_le cap) (by simp; omega)
    rw [hrun, runBytes, decodeByte_idle_flag hy, frameEvents, if_pos (Nat.lt_of_not_le hcap)]
    exact ⟨_, rfl, rfl, fun h => absurd h hcap⟩

/-- A whole encoded frame: the leading flag closes what came before, the rest is read in a fresh frame. -/
theorem runBytes_frame {cap d : Nat} {x : Decoder} (payload : List Byte) (h : escFlag? x.ctl ≠ some true) :
    ∃ y, runBytes cap d x (frameOf payload) = (y, (decodeByte cap d x 0x7E).2.toList ++ frameEvents cap d payload) ∧
      y.ctl = freshFrame ∧ (payload.length + 2 ≤ cap → bufHolds y.buf payload) := by
  obtain ⟨y, hrun, hy⟩ := runBytes_frameBody (cap := cap) (d := d) (x := { x with ctl := freshFrame }) payload rfl
  have hall := runBytes_flag_cons (cap := cap) (d := d) h (stuffAll (frameBody payload) ++ [0x7E])
  rw [hrun] at hall
  exact ⟨y, hall, hy⟩

/-! ## O35 -/

/-- Settles O35: the run over a whole encoded frame, whose three outcomes are `frameEvents`. -/
theorem encodedFrameRoundTrip : Obligations.EncodedFrameRoundTrip := by
  unfold Obligations.EncodedFrameRoundTrip
  intro payload d s x hx hc
  have hesc : escFlag? x.ctl ≠ some true := by
    obtain hc | ⟨hdr, size, fcs, hc⟩ := hc <;> simp [hc, escFlag?]
  obtain ⟨y, hrun, hy, hbuf⟩ := runBytes_frame (cap := s.params.decCap) (d := d) payload hesc
  have hevents : (frameEvents s.params.decCap d payload).map Output.event =
      if payload.length + 2 > s.params.decCap then [.event (.diag d .oversize)]
      else if payload.length < 2 then []
      else [.event (.frameReady d payload.length payload)] := by
    unfold frameEvents
    split
    · rfl
    · split <;> rfl
  have hget : (s.decs.set d y)[d]? = some y := putDecoder_get_same y hx
  refine ⟨_, y, exec_decProcess_of_runBytes hx hrun, hget, hy, ?_, fun hcap a ha => hbuf hcap a ha⟩
  rw [List.map_append, ← List.append_assoc, hevents]

/-! ## O36: garbage before a frame (R150) -/

/-- A byte other than a flag leaves a frame in progress, or gives it up with a diagnostic that is not ESC_FLAG. -/
theorem decodeByte_inFrame_of_no_flag {cap d : Nat} {x : Decoder} {b : Byte} (hb : b ≠ 0x7E)
    (hc : inFrameFlag x.ctl = true) :
    ((decodeByte cap d x b).2 = none ∧ inFrameFlag (decodeByte cap d x b).1.ctl = true) ∨
      ∃ c, c ≠ .escFlag ∧ decodeByte cap d x b = rowAbort d x c := by
  cases hx : x.ctl with
  | idle => rw [hx] at hc; cases hc
  | inFrame hdr esc size fcs =>
    cases hr : resolvedOf esc b with
    | none =>
      obtain h | ⟨rfl, rfl⟩ := eq_of_resolvedOf_none hr
      · exact absurd h hb
      · rw [decodeByte_escMark hx, rowEscMark, hx]
        exact .inl ⟨rfl, rfl⟩
    | some r =>
      rw [decodeByte_of_resolvedOf hx hr]
      obtain ⟨_, he⟩ | ⟨_, he⟩ | ⟨_, _, he⟩ | ⟨_, _, he⟩ := resolvedByte_cases cap d x r hdr false size fcs <;> rw [he]
      · exact .inl ⟨rfl, rfl⟩
      · exact .inr ⟨.badHeader, nofun, rfl⟩
      · exact .inl ⟨rfl, rfl⟩
      · exact .inr ⟨.oversize, nofun, rfl⟩

/-- So does a run of such bytes: what follows the diagnostic is discarded. -/
theorem runBytes_inFrame_of_no_flag {cap d : Nat} {x : Decoder} {bs : List Byte} (hbs : 0x7E ∉ bs)
    (hc : inFrameFlag x.ctl = true) :
    (runBytes cap d x bs).2 = [] ∨
      ∃ c, c ≠ .escFlag ∧ (runBytes cap d x bs).2 = [.diag d c] ∧ (runBytes cap d x bs).1.ctl = .idle := by
  induction bs generalizing x with
  | nil => exact .inl rfl
  | cons b bs ih =>
    obtain ⟨hb, hbs⟩ := not_or.1 (mt List.mem_cons.2 hbs)
    obtain ⟨hno, hin⟩ | ⟨c, hne, habort⟩ := decodeByte_inFrame_of_no_flag (cap := cap) (d := d) (Ne.symm hb) hc
    · simpa [runBytes, hno] using ih hbs hin
    · have hidle : (rowAbort d x c).1.ctl = .idle := rfl
      rw [runBytes, habort, runBytes_idle_of_no_flag hidle hbs]
      exact .inr ⟨c, hne, rfl, rfl⟩

/-- Garbage between two flags, from Idle, gives at most one diagnostic, not ESC_FLAG, and then a fresh frame, where no escape
is pending and no good frame stands before the second flag. -/
theorem runBytes_garbage {cap d : Nat} {x : Decoder} {garbage : List Byte} (hc : x.ctl = .idle) (hg : 0x7E ∉ garbage)
    (hesc : escFlag? (runBytes cap d x (0x7E :: garbage)).1.ctl ≠ some true)
    (hbad : ∀ hdr size, 4 ≤ size → (runBytes cap d x (0x7E :: garbage)).1.ctl ≠ .inFrame hdr false size 0xF0B8) :
    ∃ z es, runBytes cap d x (0x7E :: garbage ++ [0x7E]) = (z, es) ∧ z.ctl = freshFrame ∧ es.length ≤ 1 ∧
      ∀ ev ∈ es, ∃ c, ev = .diag d c ∧ c ≠ .escFlag := by
  have hstart : runBytes cap d x (0x7E :: garbage) = runBytes cap d (rowOpen x).1 garbage := by
    rw [runBytes, decodeByte_idle_flag hc]
    rfl
  refine ⟨_, _, (runBytes_append ..).trans (by rw [runBytes_flag_cons hesc]), rfl, ?_⟩
  rw [hstart] at hesc hbad ⊢
  obtain hno | ⟨c, hne, hone, hidle⟩ := runBytes_inFrame_of_no_flag (cap := cap) (d := d) (x := (rowOpen x).1) hg rfl
  · rw [hno]
    obtain he | ⟨hdr, size, hgood, hs, _⟩ | ⟨size, fcs, he⟩ := decodeByte_flag_cases cap d hesc
    · rw [he]
      simp [runBytes, rowOpen]
    · exact absurd hgood (hbad hdr size hs)
    · rw [he]
      simp [runBytes, rowBadFcs]
  · rw [hone, decodeByte_idle_flag hidle]
    simpa [runBytes, rowOpen] using hne

/-- A byte that is neither a flag nor an escape marker leaves no escape pending where none was. -/
theorem escFlag?_decodeByte {cap d : Nat} {x : Decoder} {b : Byte} (he : b ≠ 0x7D) (hb : b ≠ 0x7E)
    (h : escFlag? x.ctl ≠ some true) : escFlag? (decodeByte cap d x b).1.ctl ≠ some true := by
  cases hc : x.ctl with
  | idle =>
    rw [decodeByte_idle_other hc hb]
    exact h
  | inFrame hdr esc size fcs =>
    obtain rfl : esc = false := by simpa [hc, escFlag?] using h
    rw [decodeByte_of_resolvedOf hc (resolvedOf_false he hb)]
    obtain ⟨_, hr⟩ | ⟨_, hr⟩ | ⟨_, _, hr⟩ | ⟨_, _, hr⟩ := resolvedByte_cases cap d x b hdr false size fcs <;>
      rw [hr] <;> exact nofun

theorem escFlag?_runBytes {cap d : Nat} {x : Decoder} {bs : List Byte} (he : 0x7D ∉ bs) (hb : 0x7E ∉ bs)
    (h : escFlag? x.ctl ≠ some true) : escFlag? (runBytes cap d x bs).1.ctl ≠ some true := by
  induction bs generalizing x with
  | nil => exact h
  | cons b bs ih =>
    simp only [List.mem_cons, not_or] at he hb
    exact ih he.2 hb.2 (escFlag?_decodeByte (Ne.symm he.1) (Ne.symm hb.1) h)

/-- The instance a completed DEC_PROCESS leaves. -/
theorem exec_decProcess_get {d : Nat} {chunk : List Byte} {s t : State} {x y : Decoder} (hx : s.decs[d]? = some x)
    (ht : exec (.decProcess d chunk) s = .next t) (hy : t.decs[d]? = some y) :
    (runBytes s.params.decCap d x chunk).1 = y := by
  cases ht.symm.trans (exec_decProcess_of_runBytes hx rfl)
  exact Option.some.inj ((putDecoder_get_same _ hx).symm.trans hy)

/-- Settles O36: the garbage between its two flags gives at most one diagnostic, and the valid frame is read in the fresh
frame that the second flag opens. -/
theorem resynchronisationAfterGarbage : Obligations.ResynchronisationAfterGarbage := by
  unfold Obligations.ResynchronisationAfterGarbage
  constructor
  · intro garbage payload d s t1 x y hx hc hg hmin hcap ht1 hy hesc hbad
    obtain rfl := exec_decProcess_get hx ht1 hy
    obtain ⟨z, es, hgarbage, hz, hlen, hdiag⟩ := runBytes_garbage hc hg hesc hbad
    obtain ⟨z', hframe, _⟩ := runBytes_frameBody (cap := s.params.decCap) (d := d) payload hz
    have hevents : frameEvents s.params.decCap d payload = [.frameReady d payload.length payload] := by
      rw [frameEvents, if_neg (by omega), if_neg (by omega)]
    have hall : runBytes s.params.decCap d x
        (0x7E :: garbage ++ [0x7E] ++ (stuffAll (frameBody payload) ++ [0x7E])) =
          (z', es ++ [.frameReady d payload.length payload]) := by
      rw [runBytes_append, hgarbage, hframe, hevents]
    have hchunk : 0x7E :: garbage ++ 0x7E :: stuffAll (frameBody payload) ++ [0x7E] =
        0x7E :: garbage ++ [0x7E] ++ (stuffAll (frameBody payload) ++ [0x7E]) := by simp
    rw [hchunk]
    refine ⟨_, es.map Output.event, exec_decProcess_of_runBytes hx hall, by simp, by simpa using hlen, fun o ho => ?_⟩
    obtain ⟨ev, hev, rfl⟩ := List.mem_map.1 ho
    obtain ⟨c, rfl, hne⟩ := hdiag ev hev
    exact ⟨c, rfl, hne⟩
  · intro garbage d s t1 x y hx hc hb he ht1 hy
    obtain rfl := exec_decProcess_get hx ht1 hy
    rw [runBytes, decodeByte_idle_flag hc]
    exact escFlag?_runBytes he hb nofun

/-! ## O37: a wrong header (R151) -/

/-- In Idle, bytes up to a flag are discarded and the flag opens a frame. -/
theorem runBytes_idle_until_flag {cap d : Nat} {x : Decoder} {rest : List Byte} (hc : x.ctl = .idle)
    (hrest : 0x7E ∉ rest) : runBytes cap d x (rest ++ [0x7E]) = ({ x with ctl := freshFrame }, []) := by
  rw [runBytes_append, runBytes_idle_of_no_flag hc hrest, runBytes, decodeByte_idle_flag hc]
  rfl

/-- A wrong header byte, whatever flagless bytes follow it, up to the closing flag. -/
theorem runBytes_hdrBad {cap d : Nat} {x : Decoder} {hdr : Fin 3} {size : Nat} {fcs : Word} {w rest : List Byte} {r : Byte}
    (hc : x.ctl = .inFrame hdr false size fcs) (hw : wireForm w r)
    (hr : (hdr = 0 ∧ r ≠ 0xFF) ∨ (hdr = 1 ∧ r ≠ 0x03)) (hrest : 0x7E ∉ rest) :
    runBytes cap d x (w ++ (rest ++ [0x7E])) = ({ x with ctl := freshFrame }, [.diag d .badHeader]) := by
  have hidle : (rowAbort d x .badHeader).1.ctl = .idle := rfl
  rw [runBytes_wireForm_append hc hw (resolvedByte_hdrBad hr), runBytes_idle_until_flag hidle hrest]
  rfl

/-- A flag from Idle, and the bytes after it in a fresh frame. -/
theorem runBytes_idle_flag_cons {cap d : Nat} {x : Decoder} (hc : x.ctl = .idle) (rest : List Byte) :
    runBytes cap d x (0x7E :: rest) = runBytes cap d { x with ctl := freshFrame } rest := by
  rw [runBytes, decodeByte_idle_flag hc]
  rfl

/-- A closing flag in a frame that has stored nothing (R134). -/
theorem runBytes_close_empty {cap d : Nat} {x : Decoder} {hdr : Fin 3} {fcs : Word}
    (hc : x.ctl = .inFrame hdr false 0 fcs) : runBytes cap d x [0x7E] = ({ x with ctl := freshFrame }, []) := by
  rw [runBytes, decodeByte_close_short hc (by decide)]
  rfl

/-- An escaped flag in a frame (R133). -/
theorem runBytes_esc_flag {cap d : Nat} {x : Decoder} {hdr : Fin 3} {size : Nat} {fcs : Word}
    (hc : x.ctl = .inFrame hdr false size fcs) :
    runBytes cap d x [0x7D, 0x7E] = ({ x with ctl := .idle }, [.diag d .escFlag]) := by
  have hmark : (rowEscMark x).1.ctl = .inFrame hdr true size fcs := by rw [rowEscMark, hc, writeEsc]
  rw [runBytes, decodeByte_escMark hc, runBytes_escaped_flag hmark List.not_mem_nil]
  rfl

/-- Settles O37: the two header positions with a wrong byte, and the two ways a frame ends before its header does. -/
theorem badHeaderFrameIsRejected : Obligations.BadHeaderFrameIsRejected := by
  unfold Obligations.BadHeaderFrameIsRejected
  intro d s x hx hc rejected silent escaped
  have hprocess : ∀ {rest : List Byte} {y : Decoder} {es : List Event},
      runBytes s.params.decCap d { x with ctl := freshFrame } rest = (y, es) →
      exec (.decProcess d (0x7E :: rest)) s =
        .next { s with decs := s.decs.set d y, outputs := s.outputs ++ es.map Output.event } := fun h =>
    exec_decProcess_of_runBytes hx ((runBytes_idle_flag_cons hc _).trans h)
  have hsilent : silent = { silent with outputs := s.outputs ++ [] } := by rw [List.append_nil]
  have hescaped : escaped = { escaped with decs := s.decs.set d { x with ctl := .idle } } := by
    rw [← hc, set_getElem?_self hx]
  refine ⟨fun w r rest hw hr hrest => ?_, fun w1 w2 r rest hw1 hw2 hr hrest => ?_, ?_, ?_, fun w hw => ⟨?_, ?_⟩⟩
  · rw [List.cons_append, List.cons_append, List.append_assoc]
    exact hprocess (runBytes_hdrBad rfl hw (.inl ⟨rfl, hr⟩) hrest)
  · rw [List.cons_append, List.cons_append, List.cons_append, List.append_assoc, List.append_assoc]
    exact hprocess ((runBytes_addr rfl hw1 _).trans (runBytes_hdrBad rfl hw2 (.inr ⟨rfl, hr⟩) hrest))
  · rw [hsilent]
    exact hprocess (runBytes_close_empty rfl)
  · rw [hescaped]
    exact hprocess (runBytes_esc_flag rfl)
  · rw [hsilent]
    exact hprocess ((runBytes_addr rfl hw _).trans (runBytes_close_empty rfl))
  · rw [hescaped]
    exact hprocess ((runBytes_addr rfl hw _).trans (runBytes_esc_flag rfl))

/-! ## O38: two flags -/

/-- One flag leaves no escape pending, and the buffer as before. -/
theorem decodeByte_flag_clears_esc (cap d : Nat) (x : Decoder) :
    ∃ c, (decodeByte cap d x 0x7E).1 = { x with ctl := c } ∧ escFlag? c ≠ some true := by
  by_cases h : escFlag? x.ctl = some true
  · cases hc : x.ctl with
    | idle => rw [hc] at h; cases h
    | inFrame hdr esc size fcs =>
      obtain rfl : esc = true := by simpa [hc, escFlag?] using h
      rw [decodeByte_escaped_flag hc]
      exact ⟨.idle, rfl, nofun⟩
  · exact ⟨freshFrame, decodeByte_flag_opens cap d h, nofun⟩

/-- Settles O38: after the first flag no escape is pending, so the second opens a frame. -/
theorem twoFlagsAlwaysResynchronise : Obligations.TwoFlagsAlwaysResynchronise := by
  unfold Obligations.TwoFlagsAlwaysResynchronise
  intro d s x hx
  obtain ⟨c, hc, hesc⟩ := decodeByte_flag_clears_esc s.params.decCap d x
  have hrun : (runBytes s.params.decCap d x [0x7E, 0x7E]).1 = { x with ctl := freshFrame } := by
    rw [runBytes, hc, runBytes_flag_cons hesc]
    rfl
  exact ⟨_, exec_decProcess_of_runBytes hx (Prod.ext hrun rfl), putDecoder_get_same { x with ctl := freshFrame } hx⟩

end Sys2Proof.Machine

/-! PROOFS, family other, encoding. The packed word and its decoder invert each other, OPSEL by OPSEL; a decoder row is in its
class exactly where the command that carries it decodes to it, and there it does what DEC_BYTE does. -/

namespace Sys2Proof.Machine

/-! ## Packed words (30_encoding.md R67) -/

theorem decodeWord_packWord_decByte {d : Nat} (hd : d < 16) (b : Byte) :
    decodeWord (packWord 0x4 (BitVec.ofNat 4 d) 0 b) = .ok (.decByte d b) := by
  rw [decodeWord_of_opsel_four (opselField_packWord ..)]
  simp [ifZero, Nat.mod_eq_of_lt hd]

theorem decodeWord_packWord_reset {d : Nat} (hd : d < 16) :
    decodeWord (packWord 0x6 (BitVec.ofNat 4 d) 0 0) = .ok (.reset d) := by
  rw [decodeWord_of_opsel_six (opselField_packWord ..)]
  simp [ifZero, Nat.mod_eq_of_lt hd]

/-- The decoder reads back every packed word that the encoder writes. -/
theorem decodeWord_of_encodeWord {i : Instr} {w : CmdWord} (h : encodeWord i = some w) : decodeWord w = .ok i := by
  cases i <;> simp only [encodeWord, Option.some.injEq, reduceCtorEq] at h
  case tblRead b => exact h ▸ decodeWord_packWord_tblRead b
  case fcsUpdate f b => exact h ▸ decodeWord_packWord_fcsUpdate f b
  case decByte d b =>
    split at h
    · cases h
      exact decodeWord_packWord_decByte ‹_› b
    · cases h
  case reset d =>
    split at h
    · cases h
      exact decodeWord_packWord_reset ‹_›
    · cases h
  all_goals
    subst h
    simp [decodeWord]

/-- The must-be-zero test passed: the fields are zero and the instruction is the one of the form. -/
theorem ifZero_eq_ok {opsel : Nat} {zero : Bool} {i j : Instr} (h : ifZero opsel zero i = .ok j) : zero = true ∧ i = j := by
  unfold ifZero at h
  split at h
  · cases h
    exact ⟨‹_›, rfl⟩
  · cases h

/-- A word is its fields, where some of them are known. -/
theorem eq_packWord {w : CmdWord} {o n : BitVec 4} {f : Word} {b : Byte} (ho : opselField w = o) (hn : instField w = n)
    (hf : f16Field w = f) (hb : b8Field w = b) : packWord o n f b = w := by
  rw [← ho, ← hn, ← hf, ← hb, packWord_fields]

/-- A word with a reserved OPSEL is that OPSEL and the other 28 bits. -/
theorem eq_opsel_append {w : CmdWord} {o : BitVec 4} (ho : opselField w = o) : o ++ restField w = w := by
  rw [← ho, opsel_rest_fields]

/-- INST is written back as the instance number it was read as. -/
theorem instField_eq_ofNat (w : CmdWord) : instField w = BitVec.ofNat 4 (instField w).toNat := by
  rw [BitVec.ofNat_toNat, BitVec.setWidth_eq]

/-- A word whose OPSEL is none of the four that spell an operation decodes only to the reserved instruction of its OPSEL. -/
theorem encodeWord_of_decodeWord_reserved {i : Instr} {w : CmdWord} (h1 : opselField w ≠ 1) (h2 : opselField w ≠ 2)
    (h4 : opselField w ≠ 4) (h6 : opselField w ≠ 6) (h : decodeWord w = .ok i) : encodeWord i = some w := by
  have hlt : (opselField w).toNat < 16 := (opselField w).isLt
  obtain ⟨n, hn⟩ : ∃ n, (opselField w).toNat = n := ⟨_, rfl⟩
  have ho : opselField w = BitVec.ofNat 4 n := by rw [← hn, BitVec.ofNat_toNat, BitVec.setWidth_eq]
  have hrest : n = 0 ∨ n = 3 ∨ n = 5 ∨ 7 ≤ n := by
    have hn1 : n ≠ 1 := fun hk => h1 (ho.trans (congrArg (BitVec.ofNat 4) hk))
    have hn2 : n ≠ 2 := fun hk => h2 (ho.trans (congrArg (BitVec.ofNat 4) hk))
    have hn4 : n ≠ 4 := fun hk => h4 (ho.trans (congrArg (BitVec.ofNat 4) hk))
    have hn6 : n ≠ 6 := fun hk => h6 (ho.trans (congrArg (BitVec.ofNat 4) hk))
    omega
  rw [hn] at hlt
  simp only [decodeWord, hn] at h
  obtain rfl | rfl | rfl | h7 := hrest
  · cases h
    exact congrArg some (eq_opsel_append ho)
  · cases h
  · cases h
  · interval_cases n <;> cases h <;> exact congrArg some (eq_opsel_append ho)

/-- The encoder writes back every packed word that decodes: one case per OPSEL that spells an operation, and the rest. -/
theorem encodeWord_of_decodeWord {i : Instr} {w : CmdWord} (h : decodeWord w = .ok i) : encodeWord i = some w := by
  have hinst : (instField w).toNat < 16 := (instField w).isLt
  by_cases h1 : opselField w = 1
  · obtain ⟨hz, rfl⟩ := ifZero_eq_ok ((decodeWord_of_opsel_one h1).symm.trans h)
    obtain ⟨hz1, hz2⟩ : instField w = 0 ∧ f16Field w = 0 := by simpa using hz
    exact congrArg some (eq_packWord h1 hz1 hz2 rfl)
  by_cases h2 : opselField w = 2
  · obtain ⟨hz, rfl⟩ := ifZero_eq_ok ((decodeWord_of_opsel_two h2).symm.trans h)
    exact congrArg some (eq_packWord h2 (by simpa using hz) rfl rfl)
  by_cases h4 : opselField w = 4
  · obtain ⟨hz, rfl⟩ := ifZero_eq_ok ((decodeWord_of_opsel_four h4).symm.trans h)
    exact (if_pos hinst).trans (congrArg some (eq_packWord h4 (instField_eq_ofNat w) (by simpa using hz) rfl))
  by_cases h6 : opselField w = 6
  · obtain ⟨hz, rfl⟩ := ifZero_eq_ok ((decodeWord_of_opsel_six h6).symm.trans h)
    obtain ⟨hz1, hz2⟩ : f16Field w = 0 ∧ b8Field w = 0 := by simpa using hz
    exact (if_pos hinst).trans (congrArg some (eq_packWord h6 (instField_eq_ofNat w) hz1 hz2))
  exact encodeWord_of_decodeWord_reserved h1 h2 h4 h6 h

/-! ## O52 -/

/-- Settles O52: each direction is one of the two inverses. -/
theorem packedEncodingAndDecodingAgree : Obligations.PackedEncodingAndDecodingAgree := by
  unfold Obligations.PackedEncodingAndDecodingAgree
  exact fun i w => ⟨decodeWord_of_encodeWord, encodeWord_of_decodeWord⟩

/-! ## O49, O55, O56: the step on a packed word -/

/-- Where two joined fields are zero, each of them is. -/
theorem eq_zero_of_append_eq_zero {m n : Nat} {x : BitVec m} {y : BitVec n} (h : x ++ y = 0) : x = 0 ∧ y = 0 := by
  have hbit : ∀ j, (x ++ y).getLsbD j = false := fun j => by rw [h]; exact BitVec.getLsbD_zero
  simp only [BitVec.getLsbD_append] at hbit
  refine ⟨BitVec.eq_of_getLsbD_eq fun j _ => ?_, BitVec.eq_of_getLsbD_eq fun j hj => ?_⟩
  · simpa using hbit (n + j)
  · simpa [hj] using hbit j

/-- Settles O49: the decoder's answer for each of the four OPSELs, with its must-be-zero fields zero. -/
theorem wordsThatSpellAnOperationRun : Obligations.WordsThatSpellAnOperationRun := by
  unfold Obligations.WordsThatSpellAnOperationRun
  intro w s cs hp
  have hrun : ∀ {i : Instr}, decodeWord w = .ok i → step s = exec i { s with pending := cs } :=
    fun h => step_of_decode_ok hp h
  refine ⟨fun ho hz => hrun ?_, fun ho hz => hrun ?_, fun ho hz => hrun ?_, fun ho hz => hrun ?_⟩
  · rw [← instField_append_f16Field] at hz
    obtain ⟨hz1, hz2⟩ := eq_zero_of_append_eq_zero hz
    rw [decodeWord_of_opsel_one ho, hz1, hz2]
    rfl
  · rw [decodeWord_of_opsel_two ho, show instField w = 0 from hz]
    rfl
  · rw [decodeWord_of_opsel_four ho, show f16Field w = 0 from hz]
    rfl
  · rw [← f16Field_append_b8Field] at hz
    obtain ⟨hz1, hz2⟩ := eq_zero_of_append_eq_zero hz
    rw [decodeWord_of_opsel_six ho, hz1, hz2]
    rfl

/-- Settles O55: each word is evaluated. -/
theorem wordsOfTheVectorsDecode : Obligations.WordsOfTheVectorsDecode := by
  unfold Obligations.WordsOfTheVectorsDecode
  decide

/-- What a command spells does not depend on the queue. -/
theorem decode_withPending (s : State) (cs : List Cmd) (c : Cmd) : decode { s with pending := cs } c = decode s c := by
  cases c <;> rfl

/-- A 32-bit table word is read as a packed word, in any state. -/
theorem decodeWord_of_decodeTableWord {w : Nat} {i : Instr} (h : decodeTableWord 32 w = some i) :
    decodeWord (BitVec.ofNat 32 w) = .ok i := by
  cases hw : decodeWord (BitVec.ofNat 32 w) with
  | error r => simp [decodeTableWord, cmdOfTableWord, decode, hw] at h
  | ok j => simpa [decodeTableWord, cmdOfTableWord, decode, hw] using h

/-- Settles O56: the step on the next command; the table word is the packed word the host issues first. -/
theorem stepRunsTheDecodedInstruction : Obligations.StepRunsTheDecodedInstruction := by
  unfold Obligations.StepRunsTheDecodedInstruction
  refine ⟨fun s c cs i hp hd => step_of_decode_ok hp ?_, fun s c cs r hp hd => step_of_decode_error hp ?_, fun s hp => ?_,
    fun s w i hw => ?_⟩
  · exact (decode_withPending s cs c).trans hd
  · exact (decode_withPending s cs c).trans hd
  · simp [step, fetch, hp]
  · exact step_of_decode_ok (s := issueFirst s (.packed (BitVec.ofNat 32 w))) rfl (decodeWord_of_decodeTableWord hw)

/-! ## Rows and classes (30_encoding.md R69, R70) -/

theorem decode_wire {s : State} {d : Nat} {x : Decoder} (hx : s.decs[d]? = some x) (b : Byte) :
    decode s (.wire d b) = .ok (classifyWire d b x.ctl) := by
  simp [decode, hx]

theorem decode_resolved {s : State} {d : Nat} {x : Decoder} {r : Byte} {i : Instr} (hx : s.decs[d]? = some x)
    (h : classifyResolved s.params.decCap d r x.ctl = some i) : decode s (.resolved d r) = .ok i := by
  simp [decode, hx, h]

/-! ## O19, O24, O26: the remaining rows -/

/-- Settles O19: row 5 re-arms and hands over the copy of what the buffer holds. -/
theorem goodFrameIsDelivered : Obligations.GoodFrameIsDelivered := by
  unfold Obligations.GoodFrameIsDelivered
  intro d s x hdr size hx hc hs
  exact exec_decByte_and_row (i := .decCloseGood d) hx rfl (decodeByte_close_good hc hs)
    (by simp only [hc]; exact if_pos ⟨trivial, hs, rfl⟩)

/-- Settles O24: both header positions at once, by the byte expected there. -/
theorem headerByteIsMatchedAndFolded : Obligations.HeaderByteIsMatchedAndFolded := by
  unfold Obligations.HeaderByteIsMatchedAndFolded
  intro d r s x hdr esc size fcs hx hc h
  have hr : expectedHdr hdr = some r := expectedHdr_eq_some.2 h
  refine ⟨?_, resolvedByte_hdrMatch hr⟩
  rw [← afterByte_silent]
  exact onRow_some (r := rowHdrMatch x r hdr esc size fcs) hx (by simp only [hc]; exact if_pos hr)

/-- Settles O26: row 12 writes the buffer at `size`. -/
theorem resolvedByteIsStored : Obligations.ResolvedByteIsStored := by
  unfold Obligations.ResolvedByteIsStored
  intro d r s x esc size fcs hx hc hs
  refine ⟨memWrite x.buf size r, fun a => memRead_memWrite .., ?_, resolvedByte_store hs⟩
  rw [← afterByte_silent]
  exact onRow_some (r := rowStore x r 2 esc size fcs) hx (by simp only [hc]; exact if_pos ⟨trivial, hs⟩)

/-! ## O28: the row of a byte does what DEC_BYTE does -/

/-- Rows 1 to 9: the row that a wire byte is given does what DEC_BYTE does with that byte. -/
theorem exec_decByte_eq_classifyWire {d : Nat} {s : State} {x : Decoder} (hx : s.decs[d]? = some x) (b : Byte) :
    exec (.decByte d b) s = exec (classifyWire d b x.ctl) s := by
  have same : ∀ {i : Instr} {t : State}, exec (.decByte d b) s = .next t ∧ exec i s = .next t →
      exec (.decByte d b) s = exec i s := fun h => h.1.trans h.2.symm
  cases hc : x.ctl with
  | idle =>
    by_cases hb : b = Config.flag
    · subst hb
      exact same (idleFlagOpensFrame d s x hx hc)
    · rw [classifyWire, if_neg hb]
      exact same (idleIgnoresOtherBytes.1 d b s x hx hc hb)
  | inFrame hdr esc size fcs =>
    by_cases hb : b = Config.flag
    · subst hb
      cases esc with
      | true =>
        obtain ⟨hbyte, hrow, _⟩ := escapedFlagAbortsFrame.1 d s x hdr size fcs [] hx hc List.not_mem_nil
        exact same ⟨hbyte, hrow⟩
      | false =>
        rw [classifyWire, if_pos rfl, if_neg Bool.false_ne_true]
        by_cases hs : size < Config.minSize
        · rw [if_pos hs]
          exact same (shortFrameIsSilent d s x hdr size fcs hx hc hs)
        · rw [if_neg hs]
          by_cases hf : fcs = Config.fcsGood
          · subst hf
            exact same (goodFrameIsDelivered d s x hdr size hx hc (Nat.le_of_not_lt hs))
          · rw [if_neg hf]
            exact same (badChecksumIsDiagnosed d s x hdr size fcs hx hc (Nat.le_of_not_lt hs) hf)
    · rw [classifyWire, if_neg hb]
      cases esc with
      | true => exact same (pendingEscapeUnescapesNextByte d b s x hdr size fcs hx hc hb)
      | false =>
        rw [if_neg Bool.false_ne_true]
        by_cases he : b = Config.esc
        · subst he
          exact same (escapeMarkerOnlySetsFlag d s x hdr size fcs hx hc)
        · rw [if_neg he]
          exact same (literalByteIsUsedAsIs d b s x hdr size fcs hx hc he hb)

/-- Rows 10 to 13: a resolved byte in a frame is given one of them, and it does what DEC_BYTE does with a resolved byte. -/
theorem exec_classifyResolved {d : Nat} {s : State} {x : Decoder} {hdr : Fin 3} {esc : Bool} {size : Nat} {fcs : Word}
    (hx : s.decs[d]? = some x) (hc : x.ctl = .inFrame hdr esc size fcs) (r : Byte) :
    ∃ i, classifyResolved s.params.decCap d r x.ctl = some i ∧
      exec i s = .next (afterByte s d (resolvedByte s.params.decCap d x r hdr esc size fcs)) := by
  obtain ⟨h, he⟩ | ⟨h, he⟩ | ⟨rfl, hs, he⟩ | ⟨rfl, hs, he⟩ :=
    resolvedByte_cases s.params.decCap d x r hdr esc size fcs <;> rw [he]
  · refine ⟨.decHdrMatch d r, by simp [classifyResolved, hc, h], ?_⟩
    exact onRow_some hx (by simp only [hc]; exact if_pos h)
  · obtain ⟨v, hv, hr, hlt⟩ := expectedHdr_of_wrong_byte h
    refine ⟨.decHdrBad d r, by simp [classifyResolved, hc, hv, hr], ?_⟩
    exact onRow_some hx (by simp only [hc]; exact if_pos ⟨hlt, by simpa [hv] using Ne.symm hr⟩)
  · refine ⟨.decStore d r, by simp [classifyResolved, hc, expectedHdr, hs], ?_⟩
    exact onRow_some hx (by simp only [hc]; exact if_pos ⟨trivial, hs⟩)
  · refine ⟨.decOversize d r, by simp [classifyResolved, hc, expectedHdr, Nat.not_lt.2 hs], ?_⟩
    exact onRow_some hx (by simp only [hc]; exact if_pos ⟨trivial, hs⟩)

/-- Settles O28: a wire byte's row is DEC_BYTE, which completes, and a resolved byte's row is the resolved-byte processing. -/
theorem decByteTakesItsMatchingRow : Obligations.DecByteTakesItsMatchingRow := by
  unfold Obligations.DecByteTakesItsMatchingRow
  refine ⟨fun d b s x hx => ?_, fun d r s x hdr esc size fcs hx hc => exec_classifyResolved hx hc r⟩
  have hrow := exec_decByte_eq_classifyWire hx b
  exact ⟨hrow, _, hrow.symm.trans (exec_decByte_some hx b)⟩

/-! ## O48: a row outside its class -/

section
variable {i : Instr} {d : Nat} {s t : State} {x : Decoder}
variable (hd : decoderOf i = some d) (hbyte : ∀ b, i ≠ .decByte d b) (hchunk : ∀ chunk, i ≠ .decProcess d chunk)
  (hreset : i ≠ .reset d)
include hd hbyte hchunk hreset

/-- A row is an instruction that names an instance and is none of DEC_BYTE, DEC_PROCESS and RESET. -/
theorem exec_row_eq_onRow (s : State) : ∃ row, exec i s = onRow d s row := by
  cases i <;> simp only [decoderOf, Option.some.injEq, reduceCtorEq] at hd <;> subst hd
  case decByte b => exact absurd rfl (hbyte b)
  case decProcess chunk => exact absurd rfl (hchunk chunk)
  case reset => exact absurd rfl hreset
  all_goals exact ⟨_, rfl⟩

/-- A row that completes is the one its own byte is given. -/
theorem decode_encode_of_row (h : exec i s = .next t) : decode s (encode i) = .ok i := by
  cases i <;> simp only [decoderOf, Option.some.injEq, reduceCtorEq] at hd <;> subst hd
  case decByte b => exact absurd rfl (hbyte b)
  case decProcess chunk => exact absurd rfl (hchunk chunk)
  case reset => exact absurd rfl hreset
  all_goals
    obtain ⟨x, row, hx, hr, _⟩ := onRow_next h
    cases hc : x.ctl <;> simp only [hc, Option.ite_none_right_eq_some, Option.ite_none_left_eq_some, reduceCtorEq] at hr
  case decHdrMatch.inFrame =>
    exact decode_resolved hx (by simp [classifyResolved, hc, hr.1])
  case decHdrBad.inFrame r _ hdr _ _ _ =>
    obtain ⟨⟨hlt, hne⟩, _⟩ := hr
    obtain heq | hwrong | rfl := expectedHdr_cases hdr r
    · exact absurd heq hne
    · obtain ⟨v, hv, hrv, _⟩ := expectedHdr_of_wrong_byte hwrong
      exact decode_resolved hx (by simp [classifyResolved, hc, hv, hrv])
    · exact absurd hlt (by decide)
  case decStore.inFrame =>
    obtain ⟨⟨rfl, hs⟩, _⟩ := hr
    exact decode_resolved hx (by simp [classifyResolved, hc, expectedHdr, hs])
  case decOversize.inFrame =>
    obtain ⟨⟨rfl, hs⟩, _⟩ := hr
    exact decode_resolved hx (by simp [classifyResolved, hc, expectedHdr, Nat.not_lt.2 hs])
  all_goals
    have hesc : Config.esc ≠ Config.flag := by decide
    refine (decode_wire hx _).trans ?_
    simp_all [classifyWire]

/-- A row that its own byte's command decodes to is the row that some byte is given. -/
theorem class_of_decode_encode (hx : s.decs[d]? = some x) (h : decode s (encode i) = .ok i) :
    (∃ b, classifyWire d b x.ctl = i) ∨ ∃ r, classifyResolved s.params.decCap d r x.ctl = some i := by
  cases i <;> simp only [decoderOf, Option.some.injEq, reduceCtorEq] at hd <;> subst hd
  case decByte b => exact absurd rfl (hbyte b)
  case decProcess chunk => exact absurd rfl (hchunk chunk)
  case reset => exact absurd rfl hreset
  case decHdrMatch r | decHdrBad r | decStore r | decOversize r =>
    refine .inr ⟨r, ?_⟩
    cases hr : classifyResolved s.params.decCap _ r x.ctl <;> simp [encode, decode, hx, hr] at h
    rw [h]
  all_goals
    rw [encode, decode_wire hx] at h
    exact .inl ⟨_, Except.ok.inj h⟩

end

/-- The row that a byte is given completes. -/
theorem exec_row_of_class {i : Instr} {d : Nat} {s : State} {x : Decoder} (hx : s.decs[d]? = some x)
    (h : (∃ b, classifyWire d b x.ctl = i) ∨ ∃ r, classifyResolved s.params.decCap d r x.ctl = some i) :
    ∃ t, exec i s = .next t := by
  obtain ⟨b, rfl⟩ | ⟨r, hr⟩ := h
  · exact ⟨_, (exec_decByte_eq_classifyWire hx b).symm.trans (exec_decByte_some hx b)⟩
  · cases hc : x.ctl with
    | idle => rw [hc] at hr; cases hr
    | inFrame hdr esc size fcs =>
      obtain ⟨j, hj, hexec⟩ := exec_classifyResolved hx hc r
      obtain rfl : j = i := Option.some.inj (hj.symm.trans hr)
      exact ⟨_, hexec⟩

/-- Settles O48: a row is refused or completes; it completes exactly where some byte is given it. -/
theorem rowsAreRefusedOutsideTheirClass : Obligations.RowsAreRefusedOutsideTheirClass := by
  unfold Obligations.RowsAreRefusedOutsideTheirClass
  refine ⟨fun i d s x hd hx hbyte hchunk hreset => ?_, fun b s hb => if_pos hb⟩
  obtain ⟨row, hrow⟩ := exec_row_eq_onRow hd hbyte hchunk hreset s
  have hclass : (∃ t, exec i s = .next t) ↔
      (∃ b, classifyWire d b x.ctl = i) ∨ ∃ r, classifyResolved s.params.decCap d r x.ctl = some i :=
    ⟨fun ⟨t, ht⟩ => class_of_decode_encode hd hbyte hchunk hreset hx (decode_encode_of_row hd hbyte hchunk hreset ht),
      exec_row_of_class hx⟩
  have hor : exec i s = .refused .rowNotMatched ↔ ¬∃ t, exec i s = .next t := by
    rw [hrow]
    cases hr : row x with
    | none => simp [onRow, withDecoder, hx, hr]
    | some r => simp [onRow_some hx hr]
  refine ⟨hor.trans ?_, fun h => ?_⟩
  · rw [hclass, not_or, not_exists, not_exists]
  · by_contra hno
    exact h (hor.2 hno)

/-! ## O53, O54: commands and instructions -/

/-- The law of packed forms for every instruction. -/
theorem packedForm : ∀ i : Instr, Laws.PackedForm.Statement i
  | .tblRead i => Laws.PackedForm.tblRead i
  | .fcsUpdate f b => Laws.PackedForm.fcsUpdate f b
  | .encProcess p size out => Laws.PackedForm.encProcess p size out
  | .decByte d b => Laws.PackedForm.decByte d b
  | .decProcess d chunk => Laws.PackedForm.decProcess d chunk
  | .reset d => Laws.PackedForm.reset d
  | .reservedOpsel0 rest => Laws.PackedForm.reservedOpsel0 rest
  | .reservedOpsel7 rest => Laws.PackedForm.reservedOpsel7 rest
  | .reservedOpsel8 rest => Laws.PackedForm.reservedOpsel8 rest
  | .reservedOpsel9 rest => Laws.PackedForm.reservedOpsel9 rest
  | .reservedOpselA rest => Laws.PackedForm.reservedOpselA rest
  | .reservedOpselB rest => Laws.PackedForm.reservedOpselB rest
  | .reservedOpselC rest => Laws.PackedForm.reservedOpselC rest
  | .reservedOpselD rest => Laws.PackedForm.reservedOpselD rest
  | .reservedOpselE rest => Laws.PackedForm.reservedOpselE rest
  | .reservedOpselF rest => Laws.PackedForm.reservedOpselF rest
  | .fcsFold f bs => Laws.PackedForm.fcsFold f bs
  | .stuffEsc => Laws.PackedForm.stuffEsc
  | .stuffFlag => Laws.PackedForm.stuffFlag
  | .stuffPass b => Laws.PackedForm.stuffPass b
  | .decIdleFlag d => Laws.PackedForm.decIdleFlag d
  | .decIdleOther d b => Laws.PackedForm.decIdleOther d b
  | .decEscFlag d => Laws.PackedForm.decEscFlag d
  | .decCloseShort d => Laws.PackedForm.decCloseShort d
  | .decCloseGood d => Laws.PackedForm.decCloseGood d
  | .decCloseBadfcs d => Laws.PackedForm.decCloseBadfcs d
  | .decUnescape d b => Laws.PackedForm.decUnescape d b
  | .decEscMark d => Laws.PackedForm.decEscMark d
  | .decLiteral d b => Laws.PackedForm.decLiteral d b
  | .decHdrMatch d r => Laws.PackedForm.decHdrMatch d r
  | .decHdrBad d r => Laws.PackedForm.decHdrBad d r
  | .decStore d r => Laws.PackedForm.decStore d r
  | .decOversize d r => Laws.PackedForm.decOversize d r

theorem classifyStuff_of_plain {b : Byte} (h : (Instr.stuffPass b).wellFormed = true) : classifyStuff b = .stuffPass b := by
  obtain ⟨he, hf⟩ : b ≠ Config.esc ∧ b ≠ Config.flag := by simpa [Instr.wellFormed] using h
  rw [classifyStuff, if_neg he, if_neg hf]

/-- Settles O53: a packed word by the decoder's inverse, a row by its class, and the rest by its own command. -/
theorem commandsDecodeToTheInstructionTheyEncode : Obligations.CommandsDecodeToTheInstructionTheyEncode := by
  unfold Obligations.CommandsDecodeToTheInstructionTheyEncode
  intro i s t hwf h
  cases hw : encodeWord i with
  | some w =>
    rw [(packedForm i w hw).1]
    exact decodeWord_of_encodeWord hw
  | none =>
    cases i <;> simp only [encodeWord, reduceCtorEq, ite_eq_right_iff, imp_false] at hw
    case encProcess | decProcess | fcsFold | stuffEsc | stuffFlag => rfl
    case decByte d b | reset d => rw [encode, if_neg hw]; rfl
    case stuffPass b => exact congrArg Except.ok (classifyStuff_of_plain hwf)
    all_goals exact decode_encode_of_row rfl nofun nofun nofun h

theorem classifyStuff_wellFormed (b : Byte) : (classifyStuff b).wellFormed = true := by
  unfold classifyStuff
  split
  · rfl
  · split <;> simp_all [Instr.wellFormed]

/-- The row that a wire byte is given admits that byte. -/
theorem classifyWire_wellFormed (d : Nat) (b : Byte) (c : Ctl) : (classifyWire d b c).wellFormed = true := by
  cases c with
  | idle =>
    by_cases hb : b = Config.flag
    · rw [classifyWire, if_pos hb]
      rfl
    · rw [classifyWire, if_neg hb]
      simpa [Instr.wellFormed] using hb
  | inFrame hdr esc size fcs =>
    by_cases hb : b = Config.flag
    · rw [classifyWire, if_pos hb]
      split_ifs <;> rfl
    · rw [classifyWire, if_neg hb]
      split_ifs with hesc he
      · simpa [Instr.wellFormed] using hb
      · rfl
      · simpa [Instr.wellFormed] using ⟨he, hb⟩

/-- The row that a resolved byte is given admits that byte: row 10 only the two header bytes. -/
theorem classifyResolved_wellFormed {cap d : Nat} {r : Byte} {c : Ctl} {i : Instr} (h : classifyResolved cap d r c = some i) :
    i.wellFormed = true := by
  cases c with
  | idle => cases h
  | inFrame hdr esc size fcs =>
    obtain hr | hr | rfl := expectedHdr_cases hdr r
    · obtain rfl : Instr.decHdrMatch d r = i := by simpa [classifyResolved, hr] using h
      obtain ⟨_, rfl⟩ | ⟨_, rfl⟩ := expectedHdr_eq_some.1 hr <;> rfl
    · obtain ⟨v, hv, hne, _⟩ := expectedHdr_of_wrong_byte hr
      obtain rfl : Instr.decHdrBad d r = i := by simpa [classifyResolved, hv, hne] using h
      rfl
    · simp only [classifyResolved, expectedHdr] at h
      split at h <;> cases h <;> rfl

/-- Settles O54: each command decodes through one of the three classifiers, the packed word, or its own form. -/
theorem decodedInstructionsAreWellFormed : Obligations.DecodedInstructionsAreWellFormed := by
  unfold Obligations.DecodedInstructionsAreWellFormed
  intro s c i h
  cases c
  case packed w => exact (packedForm i w (encodeWord_of_decodeWord h)).2
  case stuffer b => exact Except.ok.inj h ▸ classifyStuff_wellFormed b
  case wire d b =>
    cases hx : s.decs[d]? with
    | none => simp [decode, hx] at h
    | some x =>
      rw [decode_wire hx] at h
      exact Except.ok.inj h ▸ classifyWire_wellFormed d b x.ctl
  case resolved d r =>
    cases hx : s.decs[d]? with
    | none => simp [decode, hx] at h
    | some x =>
      cases hr : classifyResolved s.params.decCap d r x.ctl with
      | none => simp [decode, hx, hr] at h
      | some j =>
        rw [decode_resolved hx hr] at h
        exact Except.ok.inj h ▸ classifyResolved_wellFormed hr
  all_goals
    cases h
    rfl

end Sys2Proof.Machine

/-! PROOFS, family other, frames. An operation that names an instance puts that instance and hands over its events, and both
depend on nothing but that instance and the capacity; every other operation leaves the instances alone. -/

namespace Sys2Proof.Machine

@[simp] theorem emitEvents_nil (s : State) : emitEvents s [] = s := by
  rw [emitEvents, List.map_nil, List.append_nil]

theorem exec_reset_some {d : Nat} {s : State} {x : Decoder} (hx : s.decs[d]? = some x) :
    exec (.reset d) s = .next (putDecoder s d { x with ctl := .idle }) := withDecoder_some _ hx

/-! ## Operations that name an instance -/

/-- The events of a row name its instance. -/
theorem RowEffect.eventDecoder {cap d : Nat} {x : Decoder} {r : Decoder × Option Event} (e : RowEffect cap d x r)
    {ev : Event} (hev : r.2 = some ev) : Machine.eventDecoder ev = d := by
  cases e <;> cases hev <;> rfl

/-- Every next state of such an operation: the instance put, and events of it handed over. -/
theorem exec_decoder_next {i : Instr} {d : Nat} {s t : State} (hd : decoderOf i = some d) (h : exec i s = .next t) :
    ∃ x y es, s.decs[d]? = some x ∧ t = emitEvents (putDecoder s d y) es ∧ ∀ ev ∈ es, eventDecoder ev = d := by
  obtain ⟨x, hx, ⟨r, hr, rfl⟩ | ⟨chunk, rfl, rfl⟩ | ⟨rfl, rfl⟩⟩ := exec_decoder_cases hd h
  · exact ⟨x, r.1, r.2.toList, hx, rfl, fun ev hev => hr.eventDecoder (Option.mem_toList.1 hev)⟩
  · refine ⟨x, _, _, hx, feedChunk_some hx chunk, fun ev hev => ?_⟩
    obtain ⟨pre, b, post, _, hb⟩ := mem_events_runBytes hev
    exact (decodeByte_effect _ _ _ b).eventDecoder hb
  · exact ⟨x, { x with ctl := .idle }, [], hx, (emitEvents_nil _).symm, nofun⟩

/-- A row has the same result on the same instance, whatever the rest of the state. -/
theorem onRow_local {d : Nat} {s t : State} {row : Decoder → Option (Decoder × Option Event)} (h : onRow d s row = .next t) :
    ∃ y es, t = emitEvents (putDecoder s d y) es ∧ ∀ s' : State, s'.decs[d]? = s.decs[d]? →
      onRow d s' row = .next (emitEvents (putDecoder s' d y) es) := by
  obtain ⟨x, r, hx, hr, rfl⟩ := onRow_next h
  exact ⟨r.1, r.2.toList, rfl, fun s' hs' => onRow_some (hs'.trans hx) hr⟩

/-- So has every operation that names an instance: what it puts and hands over depends on that instance and the parameters
only (10_state.md R38). -/
theorem exec_decoder_local {i : Instr} {d : Nat} {s t : State} (hd : decoderOf i = some d) (h : exec i s = .next t) :
    ∃ y es, t = emitEvents (putDecoder s d y) es ∧ ∀ s' : State, s'.params = s.params → s'.decs[d]? = s.decs[d]? →
      exec i s' = .next (emitEvents (putDecoder s' d y) es) := by
  cases i <;> simp only [decoderOf, Option.some.injEq, reduceCtorEq] at hd <;> subst hd
  case decByte d b =>
    obtain ⟨x, hx, _⟩ := withDecoder_next h
    cases h.symm.trans (exec_decByte_some hx b)
    exact ⟨_, _, rfl, fun s' hp hs' => hp ▸ exec_decByte_some (hs'.trans hx) b⟩
  case decProcess d chunk =>
    obtain ⟨x, hx, _⟩ := withDecoder_next h
    cases h.symm.trans (exec_decProcess_of_runBytes hx rfl)
    exact ⟨_, _, rfl, fun s' hp hs' => exec_decProcess_of_runBytes (hs'.trans hx) (by rw [hp])⟩
  case reset d =>
    obtain ⟨x, hx, _⟩ := withDecoder_next h
    cases h.symm.trans (exec_reset_some hx)
    refine ⟨{ x with ctl := .idle }, [], (emitEvents_nil _).symm, fun s' _ hs' => ?_⟩
    rw [emitEvents_nil]
    exact exec_reset_some (hs'.trans hx)
  case decUnescape | decLiteral | decStore | decOversize =>
    obtain ⟨y, es, ht, hlocal⟩ := onRow_local h
    refine ⟨y, es, ht, fun s' hp hs' => ?_⟩
    rw [← hlocal s' hs', ← hp]
    rfl
  all_goals
    obtain ⟨y, es, ht, hlocal⟩ := onRow_local h
    exact ⟨y, es, ht, fun s' _ => hlocal s'⟩

/-! ## Operations that name no instance -/

theorem exec_other_decs {i : Instr} {s t : State} (hd : decoderOf i = none) (h : exec i s = .next t) : t.decs = s.decs := by
  obtain ⟨o, rfl⟩ | ⟨_, _, _, _, _, rfl⟩ | ⟨_, _, _, _, _, rfl⟩ := exec_other_cases hd h <;> rfl

theorem exec_other_params {i : Instr} {s t : State} (hd : decoderOf i = none) (h : exec i s = .next t) :
    t.params = s.params := by
  obtain ⟨o, rfl⟩ | ⟨_, _, _, _, _, rfl⟩ | ⟨_, _, _, _, _, rfl⟩ := exec_other_cases hd h <;> rfl

/-- Beside ENC_PROCESS each of them only hands over a result. -/
theorem exec_result_only {i : Instr} {s t : State} (hd : decoderOf i = none)
    (henc : ∀ payload size out, i ≠ .encProcess payload size out) (h : exec i s = .next t) : ∃ o, t = emit s o := by
  obtain ho | ⟨payload, size, out, rfl, _⟩ | ⟨payload, size, out, rfl, _⟩ := exec_other_cases hd h
  · exact ho
  · exact absurd rfl (henc payload size out)
  · exact absurd rfl (henc payload size out)

/-- The limit on the payload, as a proposition (41_encoder.md R117). -/
theorem payloadTooLong_eq_false {limit : Option Nat} {n : Nat} :
    payloadTooLong limit n = false ↔ ∀ m, limit = some m → n ≤ m := by
  cases limit <;> simp [payloadTooLong]

/-- An ENC_PROCESS within the payload limit whose buffer is too small records the overflow (41_encoder.md R111). -/
theorem exec_encProcess_of_overflow {payload : List Byte} {size out : Nat} {s : State}
    (hmax : ∀ m, s.params.encMaxN = some m → payload.length ≤ m) (hsize : size < 2 * payload.length + 8) :
    exec (.encProcess payload size out) s = .next (recordFault s (.encOverflow payload.length size)) := by
  obtain ⟨h, _⟩ | ⟨_, _, he⟩ | ⟨_, hs, _⟩ := execEncProcess_cases payload size out s
  · rw [payloadTooLong_eq_false.2 hmax] at h
    cases h
  · exact he
  · omega

/-- The one next state of an ENC_PROCESS whose buffer is too small (41_encoder.md R111). -/
theorem exec_encProcess_overflow {payload : List Byte} {size out : Nat} {s t : State} (hsize : size < 2 * payload.length + 8)
    (h : exec (.encProcess payload size out) s = .next t) : t = recordFault s (.encOverflow payload.length size) := by
  change execEncProcess payload size out s = .next t at h
  obtain ⟨_, he⟩ | ⟨_, _, he⟩ | ⟨_, hs, _⟩ := execEncProcess_cases payload size out s
  · rw [he] at h
    cases h
  · rw [he] at h
    cases h
    rfl
  · omega

/-- What they leave in the host's buffers and the fault record depends on these alone. -/
theorem exec_other_transfer {i : Instr} {s1 s2 t1 t2 : State} (hd : decoderOf i = none) (h1 : exec i s1 = .next t1)
    (h2 : exec i s2 = .next t2) (he : s1.encOut = s2.encOut) (hf : s1.faults = s2.faults) :
    t1.encOut = t2.encOut ∧ t1.faults = t2.faults := by
  by_cases henc : ∃ payload size out, i = .encProcess payload size out
  · obtain ⟨payload, size, out, rfl⟩ := henc
    obtain hs | hs := Nat.lt_or_ge size (2 * payload.length + 8)
    · rw [exec_encProcess_overflow hs h1, exec_encProcess_overflow hs h2]
      exact ⟨he, by simp [hf]⟩
    · rw [exec_encProcess_next hs h1, exec_encProcess_next hs h2]
      exact ⟨by simp [encBuf, he], hf⟩
  · have hne : ∀ payload size out, i ≠ .encProcess payload size out := fun payload size out h => henc ⟨payload, size, out, h⟩
    obtain ⟨o1, rfl⟩ := exec_result_only hd hne h1
    obtain ⟨o2, rfl⟩ := exec_result_only hd hne h2
    exact ⟨he, hf⟩

/-! ## O42, O43, O44, O60 -/

theorem decBufRead_congr {s t : State} {d : Nat} (h : t.decs[d]? = s.decs[d]?) (a : Nat) :
    decBufRead t d a = decBufRead s d a := by
  simp [decBufRead, h]

/-- Settles O42: only the instance named is put, and the events handed over are its own. -/
theorem decoderOperationsTouchOnlyTheirInstance : Obligations.DecoderOperationsTouchOnlyTheirInstance := by
  unfold Obligations.DecoderOperationsTouchOnlyTheirInstance
  intro i d s t hd h
  obtain ⟨x, y, es, _, rfl, hes⟩ := exec_decoder_next hd h
  have hother : ∀ e, e ≠ d → (emitEvents (putDecoder s d y) es).decs[e]? = s.decs[e]? :=
    fun e he => putDecoder_get_other s y he
  exact ⟨rfl, rfl, rfl, rfl, by simp [nDec], hother, fun e a he => decBufRead_congr (hother e he) a, es, rfl, hes⟩

/-- Settles O43: both runs put the same instance and hand over the same events. -/
theorem decoderOperationsReadOnlyTheirInstance : Obligations.DecoderOperationsReadOnlyTheirInstance := by
  unfold Obligations.DecoderOperationsReadOnlyTheirInstance
  intro i d s1 s2 t1 hd hp hx h
  obtain ⟨x, _, _, hx1, _⟩ := exec_decoder_next hd h
  obtain ⟨y, es, rfl, hlocal⟩ := exec_decoder_local hd h
  have hget1 : (putDecoder s1 d y).decs[d]? = some y := putDecoder_get_same y hx1
  have hget2 : (putDecoder s2 d y).decs[d]? = some y := putDecoder_get_same y (hx.symm.trans hx1)
  exact ⟨_, hlocal s2 hp.symm hx.symm, hget2.trans hget1.symm, es.map Output.event, rfl, rfl⟩

/-- Two instances: each operation puts its own, whichever comes first. -/
theorem interleaving_of_two_instances {i j : Instr} {d e : Nat} {s t1 t2 u1 u2 : State} (hi : decoderOf i = some d)
    (hj : decoderOf j = some e) (hne : e ≠ d) (hit : exec i s = .next t1) (hju : exec j t1 = .next u1)
    (hjt : exec j s = .next t2) (hiu : exec i t2 = .next u2) :
    u1.decs = u2.decs ∧ u1.encOut = u2.encOut ∧ u1.faults = u2.faults ∧ u1.params = u2.params := by
  obtain ⟨y, es, rfl, hi'⟩ := exec_decoder_local hi hit
  obtain ⟨z, fs, rfl, hj'⟩ := exec_decoder_local hj hjt
  cases hju.symm.trans (hj' _ rfl (putDecoder_get_other s y hne))
  cases hiu.symm.trans (hi' _ rfl (putDecoder_get_other s z hne.symm))
  exact ⟨List.set_comm y z hne.symm, rfl, rfl, rfl⟩

/-- An instance and another unit: the one leaves the host's buffers and the faults alone, the other the instances. -/
theorem interleaving_of_instance_and_other {i j : Instr} {d : Nat} {s t1 t2 u1 u2 : State} (hi : decoderOf i = some d)
    (hj : decoderOf j = none) (hit : exec i s = .next t1) (hju : exec j t1 = .next u1) (hjt : exec j s = .next t2)
    (hiu : exec i t2 = .next u2) :
    u1.decs = u2.decs ∧ u1.encOut = u2.encOut ∧ u1.faults = u2.faults ∧ u1.params = u2.params := by
  have hdecs : t2.decs = s.decs := exec_other_decs hj hjt
  have hparams : t2.params = s.params := exec_other_params hj hjt
  obtain ⟨y, es, rfl, hi'⟩ := exec_decoder_local hi hit
  cases hiu.symm.trans (hi' _ hparams (by rw [hdecs]))
  obtain ⟨henc, hfaults⟩ := exec_other_transfer hj hju hjt rfl rfl
  refine ⟨?_, henc, hfaults, (exec_other_params hj hju).trans hparams.symm⟩
  rw [exec_other_decs hj hju]
  simp [hdecs]

/-- Settles O44: the other operation names another instance or none. -/
theorem interleavingOrderDoesNotMatter : Obligations.InterleavingOrderDoesNotMatter := by
  unfold Obligations.InterleavingOrderDoesNotMatter
  intro i j d s t1 t2 u1 u2 hi hj hit hju hjt hiu
  cases hje : decoderOf j with
  | none => exact interleaving_of_instance_and_other hi hje hit hju hjt hiu
  | some e => exact interleaving_of_two_instances hi hje (fun he => hj (he ▸ hje)) hit hju hjt hiu

/-- Settles O60: by the unit of the operation. -/
theorem unitsShareNoWritableState : Obligations.UnitsShareNoWritableState := by
  unfold Obligations.UnitsShareNoWritableState
  intro i s t h
  refine ⟨fun henc => ?_, fun hd => exec_other_decs hd h⟩
  cases hd : decoderOf i with
  | some d =>
    obtain ⟨x, y, es, _, rfl, _⟩ := exec_decoder_next hd h
    rfl
  | none =>
    obtain ⟨o, rfl⟩ := exec_result_only hd henc h
    rfl

/-! ## O50, O51, O59: what no operation takes back -/

/-- The parameters, the number of instances, the record and the queue over one instruction. -/
theorem exec_keeps {i : Instr} {s t : State} (h : exec i s = .next t) :
    t.params = s.params ∧ nDec t = nDec s ∧ (∃ os, t.outputs = s.outputs ++ os) ∧ t.pending = s.pending := by
  cases hd : decoderOf i with
  | some d =>
    obtain ⟨x, y, es, _, rfl, _⟩ := exec_decoder_next hd h
    exact ⟨rfl, by simp [nDec], ⟨_, rfl⟩, rfl⟩
  | none =>
    obtain ⟨o, rfl⟩ | ⟨_, _, _, _, _, rfl⟩ | ⟨_, _, _, _, _, rfl⟩ := exec_other_cases hd h
    · exact ⟨rfl, rfl, ⟨_, rfl⟩, rfl⟩
    · exact ⟨rfl, rfl, ⟨[], by simp⟩, rfl⟩
    · exact ⟨rfl, rfl, ⟨_, rfl⟩, rfl⟩

/-- The fault record over one instruction: only an ENC_PROCESS with too small a buffer adds to it. -/
theorem exec_faults {i : Instr} {s t : State} (h : exec i s = .next t) :
    t.faults = s.faults ∨ ∃ payload size out, i = .encProcess payload size out ∧ size < 2 * payload.length + 8 ∧
      t.faults = s.faults ++ [.encOverflow payload.length size] := by
  cases hd : decoderOf i with
  | some d =>
    obtain ⟨x, y, es, _, rfl, _⟩ := exec_decoder_next hd h
    exact .inl rfl
  | none =>
    obtain ⟨o, rfl⟩ | ⟨payload, size, out, rfl, hs, rfl⟩ | ⟨_, _, _, _, _, rfl⟩ := exec_other_cases hd h
    · exact .inl rfl
    · exact .inr ⟨payload, size, out, rfl, hs, rfl⟩
    · exact .inl rfl

/-- No step removes a fault. -/
theorem step_faults {s t : State} (h : step s = .next t) : ∃ fs, t.faults = s.faults ++ fs := by
  obtain ⟨_, rfl⟩ | ⟨c, cs, i, _, _, hi⟩ := step_cases h
  · exact ⟨[], by simp⟩
  · obtain hf | ⟨_, _, _, _, _, hf⟩ := exec_faults hi
    · exact ⟨[], by simp [hf]⟩
    · exact ⟨_, hf⟩

theorem withDecoder_ne_fault {d : Nat} {s : State} {k : Decoder → Host.Outcome State Fault Refusal} {f : Fault}
    (h : ∀ x, k x ≠ .fault f) : withDecoder d s k ≠ .fault f := by
  unfold withDecoder
  split
  · exact nofun
  · exact h _

theorem onRow_ne_fault {d : Nat} {s : State} {row : Decoder → Option (Decoder × Option Event)} {f : Fault} :
    onRow d s row ≠ .fault f := by
  refine withDecoder_ne_fault fun x => ?_
  cases row x <;> exact nofun

/-- No instruction stops with a fault: a row answers as `onRow` does, and the others answer a state or a refusal. -/
theorem exec_ne_fault (i : Instr) (s : State) (f : Fault) : exec i s ≠ .fault f := by
  cases i
  case encProcess payload size out =>
    change execEncProcess payload size out s ≠ .fault f
    obtain ⟨_, he⟩ | ⟨_, _, he⟩ | ⟨_, _, he⟩ := execEncProcess_cases payload size out s <;> rw [he] <;> exact nofun
  case stuffPass b =>
    simp only [exec, execStuffPass]
    split <;> exact nofun
  case decByte | decProcess | reset => exact withDecoder_ne_fault fun _ => nofun
  case decIdleFlag | decIdleOther | decEscFlag | decCloseShort | decCloseGood | decCloseBadfcs | decUnescape | decEscMark |
      decLiteral | decHdrMatch | decHdrBad | decStore | decOversize => exact onRow_ne_fault
  all_goals exact nofun

theorem step_ne_fault (s : State) (f : Fault) : step s ≠ .fault f := by
  unfold step
  split
  · exact nofun
  · split
    · exact nofun
    · exact exec_ne_fault _ _ f

/-- Settles O50: the overflow as ENC_PROCESS records it; a run with a fault recorded keeps it. -/
theorem overflowStaysRecorded : Obligations.OverflowStaysRecorded := by
  unfold Obligations.OverflowStaysRecorded
  refine ⟨fun payload size out s hmax hsize => ?_, fun s t h => step_faults h, fun s t h hbad => ?_⟩
  · exact exec_encProcess_of_overflow hmax hsize
  · obtain ⟨fs, hfs⟩ := step_faults h
    simp_all [goodRun]

/-- Settles O51: the fault record over one instruction, the four codes, and the outcomes of an instruction and a step. -/
theorem diagnosticsAreNotFaults : Obligations.DiagnosticsAreNotFaults := by
  unfold Obligations.DiagnosticsAreNotFaults
  refine ⟨fun i s t h hne => ?_, fun c => ?_, exec_ne_fault, step_ne_fault⟩
  · obtain hf | ⟨payload, size, out, hi, hsize, _⟩ := exec_faults h
    · exact absurd hf hne
    · exact ⟨payload, size, out, hi, hsize⟩
  · cases c <;> simp [diagCode]

/-- Settles O59: one instruction keeps all of it but the queue's head, which the step takes. -/
theorem parametersAndRecordNeverChange : Obligations.ParametersAndRecordNeverChange := by
  unfold Obligations.ParametersAndRecordNeverChange
  intro s t h
  obtain ⟨hp, rfl⟩ | ⟨c, cs, i, hp, _, hi⟩ := step_cases h
  · exact ⟨rfl, rfl, ⟨[], by simp⟩, by simp [hp]⟩
  · obtain ⟨hparams, hn, hout, hpend⟩ := exec_keeps hi
    exact ⟨hparams, hn, hout, by simp [hpend, hp]⟩

/-! ## O8 -/

/-- Settles O8: each of the six forms only hands over a result. -/
theorem resultOnlyOperationsChangeNothingElse : Obligations.ResultOnlyOperationsChangeNothingElse := by
  unfold Obligations.ResultOnlyOperationsChangeNothingElse
  intro i s t hform h
  obtain ⟨o, rfl⟩ : ∃ o, t = emit s o := by
    obtain ⟨b, rfl⟩ | ⟨f, b, rfl⟩ | ⟨f, bs, rfl⟩ | rfl | rfl | ⟨b, rfl⟩ := hform <;>
      exact exec_result_only rfl (by simp) h
  exact ⟨rfl, rfl, rfl, rfl, rfl, fun _ _ => rfl, fun _ _ => rfl, o, rfl⟩

end Sys2Proof.Machine

/-! PROOFS, family other, one byte and one chunk. The rows of a resolved byte give the events and the memory frame of
DEC_BYTE; chunks follow from their run on the instance alone. -/

namespace Sys2Proof.Machine

/-! ## O29: the events of one byte (42_decoder.md R147) -/

/-- The events of a resolved byte: none in rows 10 and 12, one with Idle after it in rows 11 and 13. -/
theorem resolvedByte_events {cap d : Nat} {x : Decoder} {r : Byte} {hdr : Fin 3} {esc : Bool} {size : Nat} {fcs : Word}
    (hsize : size ≤ cap) :
    ((resolvedByte cap d x r hdr esc size fcs).2 = none ∧
        ((hdr = 0 ∧ r = 0xFF) ∨ (hdr = 1 ∧ r = 0x03) ∨ (hdr = 2 ∧ size < cap))) ∨
      (resolvedByte cap d x r hdr esc size fcs = rowAbort d x .badHeader ∧
        ((hdr = 0 ∧ r ≠ 0xFF) ∨ (hdr = 1 ∧ r ≠ 0x03))) ∨
      (resolvedByte cap d x r hdr esc size fcs = rowAbort d x .oversize ∧ hdr = 2 ∧ size = cap) := by
  obtain ⟨h, he⟩ | ⟨h, he⟩ | ⟨h2, hs, he⟩ | ⟨h2, hs, he⟩ := resolvedByte_cases cap d x r hdr esc size fcs <;> rw [he]
  · exact .inl ⟨rfl, (expectedHdr_eq_some.1 h).imp_right .inl⟩
  · exact .inr (.inl ⟨rfl, h⟩)
  · exact .inl ⟨rfl, .inr (.inr ⟨h2, hs⟩)⟩
  · exact .inr (.inr ⟨rfl, h2, Nat.le_antisymm hsize hs⟩)

/-- Settles O29: a flag by rows 1 and 3 to 6, an escape marker by row 8, and a resolved byte by rows 10 to 13. -/
theorem atMostOneEventPerByte : Obligations.AtMostOneEventPerByte := by
  unfold Obligations.AtMostOneEventPerByte
  intro d b s t x hx hinv ht
  cases ht.symm.trans (exec_decByte_some hx b)
  refine ⟨_, afterByte_get_same _ hx, ?_⟩
  simp only [afterByte_outputs]
  cases hc : x.ctl with
  | idle =>
    have hno : (decodeByte s.params.decCap d x b).2 = none := by
      by_cases hb : b = 0x7E
      · rw [hb, decodeByte_idle_flag hc]
        rfl
      · rw [decodeByte_idle_other hc hb]
        rfl
    exact .inl ⟨by simp [hno], .inl rfl⟩
  | inFrame hdr esc size fcs =>
    have hsize : size ≤ s.params.decCap := by
      rw [hc] at hinv
      exact hinv.2.2
    obtain ⟨rfl, rfl⟩ | ⟨rfl, rfl, hs⟩ | ⟨rfl, rfl, hs, rfl⟩ | ⟨rfl, rfl, hs, hf⟩ | ⟨rfl, rfl⟩ | ⟨r, hr⟩ :=
      byte_inFrame_cases esc size fcs b
    · rw [decodeByte_escaped_flag hc]
      exact .inr (.inl ⟨hdr, size, fcs, rfl, rfl, rfl, rfl⟩)
    · rw [decodeByte_close_short hc hs]
      exact .inl ⟨by simp [rowOpen], .inr ⟨hdr, false, size, fcs, rfl, .inl ⟨rfl, rfl, hs⟩⟩⟩
    · rw [decodeByte_close_good hc hs]
      exact .inr (.inr (.inl ⟨hdr, size, rfl, hs, rfl, rfl, rfl⟩))
    · rw [decodeByte_close_badFcs hc hs hf]
      exact .inr (.inr (.inr (.inl ⟨hdr, size, fcs, rfl, hs, hf, rfl, rfl, rfl⟩)))
    · rw [decodeByte_escMark hc]
      exact .inl ⟨by simp [rowEscMark], .inr ⟨hdr, false, size, fcs, rfl, .inr (.inl ⟨rfl, rfl⟩)⟩⟩
    · rw [decodeByte_of_resolvedOf hc hr]
      obtain ⟨hno, hrow⟩ | ⟨he, hrow⟩ | ⟨he, rfl, rfl⟩ := resolvedByte_events (d := d) (x := x) (r := r) (hdr := hdr)
        (esc := false) (fcs := fcs) hsize
      · exact .inl ⟨by simp [hno], .inr ⟨hdr, esc, size, fcs, rfl, .inr (.inr ⟨r, hr, hrow⟩)⟩⟩
      · rw [he]
        exact .inr (.inr (.inr (.inr (.inl ⟨hdr, esc, size, fcs, r, rfl, hr, hrow, rfl, rfl⟩))))
      · rw [he]
        exact .inr (.inr (.inr (.inr (.inr ⟨esc, fcs, r, rfl, hr, rfl, rfl⟩))))

/-! ## O31: chunks (R146) -/

/-- Settles O31: the fold over a concatenation is the fold over its parts, and the instance exists between them. -/
theorem chunkBoundaryIndependence : Obligations.ChunkBoundaryIndependence := by
  unfold Obligations.ChunkBoundaryIndependence
  intro d c1 c2 s hd
  have hx : s.decs[d]? = some s.decs[d] := List.getElem?_eq_getElem hd
  have hx' : (feedChunk d s c1).decs[d]? = some (runBytes s.params.decCap d s.decs[d] c1).1 := by
    rw [feedChunk_some hx]
    exact putDecoder_get_same _ hx
  refine ⟨_, _, execDecProcess_some hx c1, execDecProcess_some hx' c2, ?_⟩
  rw [← feedChunk_append]
  exact execDecProcess_some hx (c1 ++ c2)

/-! ## O39: the buffer is never read (R154) -/

/-- A resolved byte takes the control state and its event from the control state alone. -/
theorem resolvedByte_blind (cap d : Nat) (x1 x2 : Decoder) (r : Byte) (hdr : Fin 3) (esc : Bool) (size : Nat) (fcs : Word) :
    (resolvedByte cap d x1 r hdr esc size fcs).1.ctl = (resolvedByte cap d x2 r hdr esc size fcs).1.ctl ∧
      (resolvedByte cap d x1 r hdr esc size fcs).2 = (resolvedByte cap d x2 r hdr esc size fcs).2 := by
  unfold resolvedByte
  split <;> split <;> exact ⟨rfl, rfl⟩

/-- So does DEC_BYTE, but for the payload copy of a delivery. -/
theorem decodeByte_blind {x1 x2 : Decoder} (cap d : Nat) (b : Byte) (h : x1.ctl = x2.ctl) :
    (decodeByte cap d x1 b).1.ctl = (decodeByte cap d x2 b).1.ctl ∧
      (decodeByte cap d x1 b).2.map eventLabel = (decodeByte cap d x2 b).2.map eventLabel := by
  cases hc : x2.ctl with
  | idle =>
    rw [hc] at h
    by_cases hb : b = 0x7E
    · subst hb
      rw [decodeByte_idle_flag h, decodeByte_idle_flag hc]
      exact ⟨rfl, rfl⟩
    · rw [decodeByte_idle_other h hb, decodeByte_idle_other hc hb]
      exact ⟨h.trans hc.symm, rfl⟩
  | inFrame hdr esc size fcs =>
    rw [hc] at h
    obtain ⟨rfl, rfl⟩ | ⟨rfl, rfl, hs⟩ | ⟨rfl, rfl, hs, rfl⟩ | ⟨rfl, rfl, hs, hf⟩ | ⟨rfl, rfl⟩ | ⟨r, hr⟩ :=
      byte_inFrame_cases esc size fcs b
    · rw [decodeByte_escaped_flag h, decodeByte_escaped_flag hc]
      exact ⟨rfl, rfl⟩
    · rw [decodeByte_close_short h hs, decodeByte_close_short hc hs]
      exact ⟨rfl, rfl⟩
    · rw [decodeByte_close_good h hs, decodeByte_close_good hc hs]
      exact ⟨rfl, rfl⟩
    · rw [decodeByte_close_badFcs h hs hf, decodeByte_close_badFcs hc hs hf]
      exact ⟨rfl, rfl⟩
    · rw [decodeByte_escMark h, decodeByte_escMark hc, rowEscMark, rowEscMark, h, hc]
      exact ⟨rfl, rfl⟩
    · rw [decodeByte_of_resolvedOf h hr, decodeByte_of_resolvedOf hc hr]
      obtain ⟨hctl, hev⟩ := resolvedByte_blind cap d x1 x2 r hdr false size fcs
      exact ⟨hctl, by rw [hev]⟩

/-- And a chunk, byte by byte. -/
theorem runBytes_blind {x1 x2 : Decoder} (cap d : Nat) (chunk : List Byte) (h : x1.ctl = x2.ctl) :
    (runBytes cap d x1 chunk).1.ctl = (runBytes cap d x2 chunk).1.ctl ∧
      (runBytes cap d x1 chunk).2.map eventLabel = (runBytes cap d x2 chunk).2.map eventLabel := by
  induction chunk generalizing x1 x2 with
  | nil => exact ⟨h, rfl⟩
  | cons b bs ih =>
    obtain ⟨hctl, hev⟩ := decodeByte_blind cap d b h
    obtain ⟨hctl', hev'⟩ := ih hctl
    refine ⟨hctl', ?_⟩
    rw [runBytes, runBytes, List.map_append, List.map_append, hev', ← Option.toList_map, ← Option.toList_map, hev]

/-- Settles O39: both runs over the chunk from the same control state. -/
theorem decoderNeverReadsItsBuffer : Obligations.DecoderNeverReadsItsBuffer := by
  unfold Obligations.DecoderNeverReadsItsBuffer
  intro d chunk s1 s2 x1 x2 hp hx1 hx2 hc
  obtain ⟨hctl, hev⟩ := runBytes_blind s1.params.decCap d chunk hc
  exact ⟨_, _, _, _, _, _, exec_decProcess_of_runBytes hx1 rfl, exec_decProcess_of_runBytes hx2 (by rw [← hp]),
    putDecoder_get_same _ hx1, putDecoder_get_same _ hx2, hctl, rfl, rfl, hev⟩

/-! ## O40, O41: what a byte writes (R42, R143, R198) -/

/-- Only row 12 writes, at `dec.size`, with the header matched and room left. -/
theorem RowEffect.buf {cap d : Nat} {x : Decoder} {r : Decoder × Option Event} (e : RowEffect cap d x r) :
    r.1.buf = x.buf ∨ ∃ esc size fcs v, x.ctl = .inFrame 2 esc size fcs ∧ size < cap ∧ r.1.buf = memWrite x.buf size v := by
  cases e with
  | stored hdr esc esc' size fcs v hc hr hs =>
    obtain rfl := expectedHdr_eq_none.1 hr
    exact .inr ⟨esc, size, fcs, v, hc, hs, rfl⟩
  | _ => exact .inl rfl

/-- A row writes nothing where the header is not matched. -/
theorem RowEffect.buf_of_not_matched {cap d : Nat} {x : Decoder} {r : Decoder × Option Event} (e : RowEffect cap d x r)
    (h : ∀ esc size fcs, x.ctl ≠ .inFrame 2 esc size fcs) : r.1.buf = x.buf := by
  obtain hbuf | ⟨esc, size, fcs, _, hc, _⟩ := e.buf
  · exact hbuf
  · exact absurd hc (h esc size fcs)

/-- A flag is never stored. -/
theorem decodeByte_flag_buf (cap d : Nat) (x : Decoder) : (decodeByte cap d x 0x7E).1.buf = x.buf := by
  obtain ⟨c, hc, _⟩ := decodeByte_flag_clears_esc cap d x
  rw [hc]

/-- From a fresh frame, one byte does not reach the bytes after the header. -/
theorem RowEffect.not_matched_of_fresh {cap d : Nat} {x : Decoder} {r : Decoder × Option Event} (e : RowEffect cap d x r)
    (hx : x.ctl = freshFrame) (esc : Bool) (size : Nat) (fcs : Word) : r.1.ctl ≠ .inFrame 2 esc size fcs := by
  obtain ⟨c, buf⟩ := x
  obtain rfl : c = freshFrame := hx
  cases e with
  | hdrMatched hdr esc esc' size fcs r hc hr =>
    cases hc
    exact nofun
  | stored hdr esc esc' size fcs r hc hr hs =>
    cases hc
    cases hr
  | _ => exact nofun

/-- Settles O40: the first of two bytes finds no header byte matched, and the second at most one. -/
theorem deliveredPayloadSurvivesTwoBytes : Obligations.DeliveredPayloadSurvivesTwoBytes := by
  unfold Obligations.DeliveredPayloadSurvivesTwoBytes
  intro d chunk s t x y hx hc hlen ht hy
  obtain rfl := exec_decProcess_get hx ht hy
  have hfirst : ∀ b, (decodeByte s.params.decCap d x b).1.buf = x.buf := fun b =>
    (decodeByte_effect _ _ _ b).buf_of_not_matched fun _ _ _ h => nomatch hc.symm.trans h
  match chunk, hlen with
  | [], _ => rfl
  | [b], _ => exact hfirst b
  | [b, c], _ =>
    exact ((decodeByte_effect _ _ _ c).buf_of_not_matched ((decodeByte_effect _ _ _ b).not_matched_of_fresh hc)).trans
      (hfirst b)

theorem inFrame_of_escFlag?_false {c : Ctl} (h : escFlag? c = some false) :
    ∃ hdr size fcs, c = .inFrame hdr false size fcs := by
  cases c with
  | idle => cases h
  | inFrame hdr esc size fcs =>
    cases h
    exact ⟨hdr, size, fcs, rfl⟩

/-- After DEC_BYTE, the other instances' buffers are as before, and its own is the row's. -/
theorem decBufRead_afterByte {s : State} {d : Nat} {x : Decoder} (hx : s.decs[d]? = some x) (r : Decoder × Option Event)
    {d' a : Nat} (h : d' = d → memRead r.1.buf a = memRead x.buf a) :
    decBufRead (afterByte s d r) d' a = decBufRead s d' a := by
  by_cases hd : d' = d
  · subst hd
    rw [decBufRead_some (afterByte_get_same r hx), decBufRead_some hx, h rfl]
  · exact decBufRead_congr (putDecoder_get_other s r.1 hd) a

/-- Settles O41: the row's one write, and the bytes and states whose row writes nothing. -/
theorem decByteMemoryFrame : Obligations.DecByteMemoryFrame := by
  unfold Obligations.DecByteMemoryFrame
  intro d b s t x hx ht
  cases ht.symm.trans (exec_decByte_some hx b)
  have heff := decodeByte_effect s.params.decCap d x b
  refine ⟨fun d' a hframe => decBufRead_afterByte hx _ fun hd => ?_, fun hcase d' a => ?_, fun _ _ => rfl⟩
  · obtain hbuf | ⟨esc, size, fcs, v, hc, hs, hbuf⟩ := heff.buf
    · rw [hbuf]
    · have hne : a ≠ size := fun ha => hframe 2 esc size fcs hc ⟨hd, ha, hs⟩
      rw [hbuf, memRead_memWrite_other _ _ _ _ hne]
  · have hbuf : (decodeByte s.params.decCap d x b).1.buf = x.buf := by
      obtain rfl | hc | ⟨rfl, hesc⟩ | ⟨hdr, esc, size, fcs, hc, hlt⟩ := hcase
      · exact decodeByte_flag_buf _ _ _
      · exact heff.buf_of_not_matched fun _ _ _ h => nomatch hc.symm.trans h
      · obtain ⟨hdr, size, fcs, hc⟩ := inFrame_of_escFlag?_false hesc
        rw [decodeByte_escMark hc, rowEscMark]
      · refine heff.buf_of_not_matched fun _ _ _ h => ?_
        cases hc.symm.trans h
        exact absurd hlt (by decide)
    exact decBufRead_afterByte hx _ fun _ => by rw [hbuf]

end Sys2Proof.Machine

/-! PROOFS, family other, the FCS16 unit, the encoder, and reset. The bit-serial form splits a word into its two bytes; the
frame's length and flags follow from its stuffed body. -/

namespace Sys2Proof.Machine

/-! ## O3 to O6: the FCS16 unit (40_fcs16.md, 30_encoding.md R74) -/

theorem exec_fcsFold (f : Word) (bs : List Byte) (s : State) :
    exec (.fcsFold f bs) s = .next (emit s (.word (fcsFoldBytes f bs))) := rfl

/-- Settles O3: FCS_FOLD hands over the fold, which takes one byte at a time. -/
theorem fcsFoldIsRepeatedFcsUpdate : Obligations.FcsFoldIsRepeatedFcsUpdate := by
  unfold Obligations.FcsFoldIsRepeatedFcsUpdate
  refine ⟨fun f s => exec_fcsFold f [] s, fun f b bs s => ?_, exec_fcsFold⟩
  rw [exec_fcsFold, exec_fcsFold, fcsFoldBytes_cons]

/-- The listing is the table, entry by entry: the one evaluation of all 256 entries. -/
theorem fcsTableListing_eq_map : fcsTableListing = (List.range 256).map fun n => fcsTable (BitVec.ofNat 8 n) := by
  decide +kernel

/-- Settles O4: the listing at `i` is the table at `i`. -/
theorem fcsTableMatchesTheListing : Obligations.FcsTableMatchesTheListing := by
  unfold Obligations.FcsTableMatchesTheListing
  rw [fcsTableListing_eq_map]
  refine ⟨by simp, fun i => ?_⟩
  have hi : i.toNat < 256 := i.isLt
  simp [List.getElem?_map, List.getElem?_range hi]

/-- Settles O5: linearity from the passes of the generator, and the nine entries by evaluation. -/
theorem fcsTableIsXorLinear : Obligations.FcsTableIsXorLinear := by
  unfold Obligations.FcsTableIsXorLinear
  exact ⟨fcsTable_xor, by decide⟩

/-- A pass whose low bit is 0 only shifts. -/
theorem fcsShift_of_low_zero {x : Word} (h : x.getLsbD 0 = false) : fcsShift x = x >>> 1 := by
  rw [fcsShift, h, if_neg Bool.false_ne_true]

/-- As long as only zeros are shifted out, the passes only shift. -/
theorem fcsShifts_of_low_zero (n : Nat) {x : Word} (h : ∀ j < n, x.getLsbD j = false) : fcsShifts n x = x >>> n := by
  induction n generalizing x with
  | zero => simp [fcsShifts]
  | succ n ih =>
    have htail : ∀ j < n, (x >>> 1).getLsbD j = false := fun j hj => by
      rw [BitVec.getLsbD_ushiftRight]
      exact h (1 + j) (by omega)
    rw [fcsShifts, fcsShift_of_low_zero (h 0 (by omega)), ih htail, ← BitVec.shiftRight_add, Nat.add_comm]

/-- A word is its high byte in place, XOR its low byte. -/
theorem xor_bytes (x : Word) : (x >>> 8 <<< 8) ^^^ zext16 (loByte x) = x := by
  apply BitVec.eq_of_getLsbD_eq
  intro j hj
  by_cases h8 : j < 8
  · simp [zext16, loByte, h8, hj]
  · have hle : 8 + (j - 8) = j := by omega
    simp [zext16, loByte, h8, hj, hle]

/-- Eight passes shift the high byte down and replace the low byte by its table entry. -/
theorem fcsShifts_eight (x : Word) : fcsShifts 8 x = (x >>> 8) ^^^ fcsTable (loByte x) := by
  have hhigh : fcsShifts 8 (x >>> 8 <<< 8) = x >>> 8 := by
    rw [fcsShifts_of_low_zero 8 (fun j hj => by simp [hj])]
    apply BitVec.eq_of_getLsbD_eq
    intro j hj
    simpa using fun h : x.getLsbD (8 + j) = true => BitVec.lt_of_getLsbD h
  conv_lhs => rw [← xor_bytes x, fcsShifts_xor, hhigh]
  rfl

/-- Settles O6: eight passes over `f ^ zext16 b`, whose high byte is that of `f`. -/
theorem fcsUpdateEqualsBitSerialForm : Obligations.FcsUpdateEqualsBitSerialForm := by
  unfold Obligations.FcsUpdateEqualsBitSerialForm
  intro f b
  have hlo : loByte (zext16 b) = b := by
    apply BitVec.eq_of_getLsbD_eq
    intro j hj
    simpa [loByte, zext16, hj] using fun _ : b[j] = true => (by omega : j < 16)
  have hhi : zext16 b >>> 8 = 0#16 := by
    apply BitVec.eq_of_getLsbD_eq
    intro j hj
    simp [zext16]
  calc fcsUpdate f b
      = ((f ^^^ zext16 b) >>> 8) ^^^ fcsTable (loByte (f ^^^ zext16 b)) := by
        rw [fcsUpdate_eq_loByte, BitVec.ushiftRight_xor_distrib, hhi, BitVec.xor_zero, loByte_xor, hlo]
    _ = fcsShifts 8 (f ^^^ zext16 b) := (fcsShifts_eight _).symm
    _ = fcsShift^[8] (f ^^^ zext16 b) := fcsShifts_eq_iterate 8 _

/-! ## O9: the stuffer's classes -/

/-- Settles O9: the two special bytes are evaluated, a plain byte is stuffed as itself, and the class is the decoder's. -/
theorem stufferClassesGiveTheirBytes : Obligations.StufferClassesGiveTheirBytes := by
  unfold Obligations.StufferClassesGiveTheirBytes
  refine ⟨fun s => rfl, fun s => rfl, fun b s he hb => ?_, fun b s => rfl⟩
  have hplain : ¬(b = 0x7D ∨ b = 0x7E) := not_or.2 ⟨he, hb⟩
  calc exec (.stuffPass b) s = .next (emit s (.bytes (stuff b))) := if_neg hplain
    _ = .next (emit s (.bytes [b])) := by rw [stuff_of_plain hplain]

/-! ## O11, O12, O13: the encoded frame -/

/-- Stuffing adds one byte for each escape marker and flag. -/
theorem length_stuffAll (bs : List Byte) :
    (stuffAll bs).length = bs.length + bs.countP (fun b => b == 0x7D || b == 0x7E) := by
  induction bs with
  | nil => rfl
  | cons b bs ih =>
    rw [stuffAll_cons, List.length_append, ih, List.length_cons, List.countP_cons]
    by_cases h : b = 0x7D ∨ b = 0x7E
    · have hp : (b == 0x7D || b == 0x7E) = true := by simpa using h
      rw [stuff_of_special h, if_pos hp]
      simp only [List.length_cons, List.length_nil]
      omega
    · have hp : ¬(b == 0x7D || b == 0x7E) = true := by simpa using h
      rw [stuff_of_plain h, if_neg hp]
      simp only [List.length_cons, List.length_nil]
      omega

/-- R110: the flags, the header and the FCS, and one byte more for each escaped byte of the payload and the FCS. -/
theorem length_frameOf (payload : List Byte) :
    (frameOf payload).length = payload.length + 6 +
      (payload ++ [loByte (frameFcs payload), hiByte (frameFcs payload)]).countP (fun b => b == 0x7D || b == 0x7E) := by
  have hframe : (frameOf payload).length = (stuffAll (frameBody payload)).length + 2 := by simp [frameOf]
  have hcount : (frameBody payload).countP (fun b => b == 0x7D || b == 0x7E) =
      (payload ++ [loByte (frameFcs payload), hiByte (frameFcs payload)]).countP (fun b => b == 0x7D || b == 0x7E) := rfl
  have hbody : (frameBody payload).length = payload.length + 4 := by simp [frameBody]
  rw [hframe, length_stuffAll, hcount, hbody]
  omega

/-- R62: an ENC_PROCESS within the payload limit, with a buffer that is large enough, puts the frame and hands over its
length. -/
theorem exec_encProcess_of_fits {payload : List Byte} {size out : Nat} {s : State}
    (hmax : ∀ m, s.params.encMaxN = some m → payload.length ≤ m) (hsize : 2 * payload.length + 8 ≤ size) :
    ∃ t, exec (.encProcess payload size out) s = .next t := by
  obtain ⟨h, _⟩ | ⟨_, hs, _⟩ | ⟨_, _, he⟩ := execEncProcess_cases payload size out s
  · rw [payloadTooLong_eq_false.2 hmax] at h
    cases h
  · omega
  · exact ⟨_, he⟩

/-- A payload over the limit is refused. -/
theorem exec_encProcess_of_tooLong {payload : List Byte} {size out m : Nat} {s : State} (hm : s.params.encMaxN = some m)
    (hlen : m < payload.length) :
    exec (.encProcess payload size out) s = .refused (.payloadTooLong payload.length) := by
  have hlong : payloadTooLong s.params.encMaxN payload.length = true := by rw [hm]; exact decide_eq_true hlen
  exact if_pos hlong

/-- What ENC_PROCESS leaves at every offset of every buffer. -/
theorem exec_encProcess_reads {payload : List Byte} {size out : Nat} {s t : State}
    (hsize : 2 * payload.length + 8 ≤ size) (h : exec (.encProcess payload size out) s = .next t) :
    (∀ a, encOutRead t out a = if a < (frameOf payload).length then (frameOf payload)[a]? else encOutRead s out a) ∧
      ∀ o a, o ≠ out → encOutRead t o a = encOutRead s o a := by
  obtain rfl := exec_encProcess_next hsize h
  refine ⟨fun a => by simp [encOutRead, encPutAll_read], fun o a ho => ?_⟩
  rw [encOutRead, encBuf_emit, encBuf_putEncOut_other _ _ _ _ ho, encOutRead]

/-- Settles O11: the refusal, the overflow, and what the one next state shows of the caller's buffers. -/
theorem encProcessWritesTheFrame : Obligations.EncProcessWritesTheFrame := by
  unfold Obligations.EncProcessWritesTheFrame
  refine ⟨?_, by decide +kernel⟩
  intro payload size out s fcsv frame
  refine ⟨fun m hm hlen => exec_encProcess_of_tooLong hm hlen, exec_encProcess_of_overflow, fun hmax hsize => ?_⟩
  obtain ⟨t, ht⟩ := exec_encProcess_of_fits (out := out) hmax hsize
  obtain ⟨hread, hother⟩ := exec_encProcess_reads hsize ht
  exact ⟨t, ht, by rw [exec_encProcess_next hsize ht]; rfl, hread, hother⟩

/-- Settles O12: the length of the frame, of which at most every byte of the payload and the FCS is escaped. -/
theorem encodedLengthBounds : Obligations.EncodedLengthBounds := by
  unfold Obligations.EncodedLengthBounds
  intro payload size out s t hsize h
  refine ⟨_, exec_encProcess_outputs hsize h, length_frameOf payload, ?_⟩
  have hle := List.countP_le_length (p := fun b : Byte => b == 0x7D || b == 0x7E)
    (l := payload ++ [loByte (frameFcs payload), hiByte (frameFcs payload)])
  rw [length_frameOf]
  simp only [List.length_append, List.length_cons, List.length_nil] at hle
  omega

/-- Between its two flags the frame holds its stuffed body. -/
theorem frameOf_getElem?_succ {payload : List Byte} {a : Nat} (ha : a < (stuffAll (frameBody payload)).length) :
    (frameOf payload)[a + 1]? = (stuffAll (frameBody payload))[a]? := by
  rw [frameOf, List.cons_append, List.getElem?_cons_succ, List.getElem?_append_left ha]

/-- Its last byte is a flag. -/
theorem frameOf_getElem?_last (payload : List Byte) :
    (frameOf payload)[(stuffAll (frameBody payload)).length + 1]? = some 0x7E := by
  rw [frameOf, List.cons_append, List.getElem?_cons_succ, List.getElem?_concat_length]
  rfl

/-- Settles O13: the frame is a flag, a stuffed body that starts with the header and has no flag, and a flag. -/
theorem encodedFlagAndHeaderPositions : Obligations.EncodedFlagAndHeaderPositions := by
  unfold Obligations.EncodedFlagAndHeaderPositions
  intro payload size out s t hsize h
  have hlen : (frameOf payload).length = (stuffAll (frameBody payload)).length + 2 := by simp [frameOf]
  have hread : ∀ a, a < (frameOf payload).length → encOutRead t out a = (frameOf payload)[a]? :=
    fun a => exec_encProcess_read hsize h
  obtain ⟨rest, hheader⟩ : ∃ rest, stuffAll (frameBody payload) = 0xFF :: 0x03 :: rest := ⟨_, rfl⟩
  have hbody : 2 ≤ (stuffAll (frameBody payload)).length := by simp [hheader]
  refine ⟨_, exec_encProcess_outputs hsize h, hread 0 (by omega), ?_, ?_, ?_, fun a h0 ha => ?_⟩
  · rw [hread _ (by omega), hlen]
    exact frameOf_getElem?_last payload
  · rw [hread 1 (by omega), frameOf_getElem?_succ (by omega), hheader]
    rfl
  · rw [hread 2 (by omega), frameOf_getElem?_succ (by omega), hheader]
    rfl
  · obtain ⟨a, rfl⟩ : ∃ b, a = b + 1 := ⟨a - 1, by omega⟩
    rw [hread _ (by omega), frameOf_getElem?_succ (by omega)]
    exact fun hflag => flag_not_mem_stuffAll _ (List.mem_of_getElem? hflag)

/-! ## O45, O46: RESET and power-up -/

/-- After power-up every instance is in Idle and its buffer reads as the drawn bytes. -/
theorem powerUp_get {n d : Nat} {p : Params} {x : Decoder} (h : (State.powerUp n p).decs[d]? = some x) :
    x = { ctl := .idle, buf := [] } := by
  have := List.mem_of_getElem? h
  exact List.eq_of_mem_replicate this

/-- Settles O45: the decoder's answer for the word, RESET as one update, and row 2 after it. -/
theorem resetPutsInstanceInIdle : Obligations.ResetPutsInstanceInIdle := by
  unfold Obligations.ResetPutsInstanceInIdle
  refine ⟨fun d hd => decodeWord_packWord_reset hd, fun d s x hx => exec_reset_some hx, fun d s t h => ?_, fun n d p x hx => ?_⟩
  · obtain ⟨x, hx, _⟩ := withDecoder_next h
    cases h.symm.trans (exec_reset_some hx)
    exact (idleIgnoresOtherBytes.1 d 0x41 _ _ (putDecoder_get_same _ hx) rfl (by decide)).1
  · rw [powerUp_get hx]
    exact ⟨rfl, fun a => rfl⟩

/-- Settles O46: `n` copies of one instance in Idle with an unwritten buffer. -/
theorem stateAfterReset : Obligations.StateAfterReset := by
  unfold Obligations.StateAfterReset
  refine ⟨fun n p => ⟨by simp [nDec, State.powerUp], rfl, rfl, fun d hd => ?_, fun out a => rfl⟩, rfl⟩
  exact ⟨{ ctl := .idle, buf := [] }, by simp [State.powerUp, hd], rfl, fun a => ⟨rfl, rfl⟩⟩

end Sys2Proof.Machine
